-- ==== Sys2Proof/Word.lean ====
section
/-! DEFINITION. The word types of NDD (00_scope.md R9): a byte is 0..255, a word is 0..2^32-1, and bit 0 is the
least significant bit. Word arithmetic is modulo 2^32 (R10), which is `BitVec`'s own. -/

namespace Sys2Proof

/-- A byte, "an unsigned integer 0..255" (00_scope.md R9). -/
abbrev Byte := BitVec 8

/-- A 16-bit pattern, the operand of `s16` (00_scope.md R9). -/
abbrev Half := BitVec 16

/-- A word, "an unsigned integer 0..2^32-1" (00_scope.md R9). -/
abbrev Word := BitVec 32

end Sys2Proof
end

