-- ==== Sys2Proof/Syntax.lean ====
section
/-! DEFINITION. What the outside world can say to NDD: the two commands and the three report tags of
spec/opcode_table.json (30_encoding.md R98), the layout tables of an instantiation (00_scope.md R7), and the events at
the block's boundary (host accesses, 20_memory.md R52; the engine's turns, 42_commands.md R163; resets, R200). -/

namespace Sys2Proof

/-- The instructions of NDD, one constructor per row of spec/opcode_table.json. Register-like operands keep the width of
their field, so every value of the type fits its encoding (30_encoding.md R80, R81). -/
inductive Instr where
  /-- DECRYPT (R80, R108): word count `n` = CMD[7:4], base rounds `br` = CMD[15:8]. -/
  | decrypt (n : BitVec 4) (br : BitVec 8)
  /-- DECODE (R80, R82, R165): no operands. -/
  | decode
  /-- FRAME_A5 (R85, R125): the dual-controller frame, report tag 0xA5. -/
  | frameA5
  /-- FRAME_A6 (R85, R126): the headset and base-station frame, report tag 0xA6. -/
  | frameA6
  /-- FRAME_OTHER (R85, R127): a report whose tag is neither 0xA5 nor 0xA6. -/
  | frameOther (tag : Byte)
deriving DecidableEq, Repr

/-- One layout table (00_scope.md R7): the controller record length and the byte offsets of the fields, each relative
to its record's base. -/
structure LayoutTable where
  /-- L_C, the controller record length. -/
  lC : Nat
  /-- C_POS, the controller position. -/
  cPos : Nat
  /-- C_QUAT, the controller orientation. -/
  cQuat : Nat
  /-- C_BTN, the button mask. -/
  cBtn : Nat
  /-- C_TX, the touch-pad X byte. -/
  cTx : Nat
  /-- C_TY, the touch-pad Y byte. -/
  cTy : Nat
  /-- C_BAT, the battery byte. -/
  cBat : Nat
  /-- C_TRIG, the trigger byte. -/
  cTrig : Nat
  /-- H_HOME, the home position. -/
  hHome : Nat
  /-- H_POS, the headset position. -/
  hPos : Nat
  /-- H_QUAT, the headset orientation. -/
  hQuat : Nat
  /-- B_VAL, the base-station byte. -/
  bVal : Nat
deriving DecidableEq, Repr

/-- The width of a host access: NDD takes 32 bits; the others are widths "the platform bus can express" (20_memory.md
R52). -/
inductive BusWidth where
  | w8
  | w16
  | w32
  | w64
deriving DecidableEq, Repr

/-- One host access at a 12-bit byte address (20_memory.md R50, R52). The data of a write that is not 32 bits wide never
matters, since such a write raises BusError. -/
inductive HostAccess where
  /-- `MemRead(addr, width)` of 00_scope.md R12. -/
  | read (addr : BitVec 12) (width : BusWidth)
  /-- `MemWrite(addr, width, data)` of 00_scope.md R12. -/
  | write (addr : BitVec 12) (width : BusWidth) (data : Word)
deriving DecidableEq, Repr

/-- One event at the block's boundary. A list of them is a serialisation of what happens: "A host access and an engine
step never happen at the same instant; they are serialised" (60_exceptions.md R185). DESIGN CHOICE, log entry 4. -/
inductive Input where
  /-- The port receives a host access. -/
  | access (a : HostAccess)
  /-- The scheduler lets the engine move: it takes its step if a command is in progress (42_commands.md R163). -/
  | engine
  /-- The reset input is asserted and released (70_reset_and_hazards.md R200). -/
  | reset
deriving DecidableEq, Repr

end Sys2Proof
end

