-- ==== Sys2Proof/WellFormed.lean ====
section
/-! DEFINITION. Which terms of Syntax mean something: well-formed instructions (30_encoding.md R85, R98) and admitted
layout tables (30_encoding.md R88). -/

namespace Sys2Proof

/-- An instruction as the encoding admits it. The field widths of `decrypt` leave nothing to check; FRAME_OTHER stands
for "every other tag" only (30_encoding.md R85, R98). -/
def Instr.wellFormed : Instr → Bool
  | .decrypt _ _ => true
  | .decode => true
  | .frameA5 => true
  | .frameA6 => true
  | .frameOther tag => tag != 0xA5#8 && tag != 0xA6#8

/-- Clause 2 of 30_encoding.md R88 for one controller field of `size` bytes at `offset`. -/
def LayoutTable.controllerFieldFits (t : LayoutTable) (offset size : Nat) : Bool :=
  decide (2 ≤ offset) && decide (offset + size ≤ t.lC)

/-- Clauses 3 and 4 of 30_encoding.md R88 for one field of `size` bytes at `offset` of the record at `base`. -/
def LayoutTable.recordFieldFits (base offset size : Nat) : Bool :=
  decide (2 ≤ offset) && decide (base + offset + size ≤ 64)

/-- Layout well-formedness (30_encoding.md R88): "A layout table is admitted only if all of the following hold." -/
def LayoutTable.admitted (t : LayoutTable) : Bool :=
  decide (21 ≤ t.lC) && decide (t.lC ≤ 63)
  && t.controllerFieldFits t.cPos 6 && t.controllerFieldFits t.cQuat 8
  && t.controllerFieldFits t.cBtn 1 && t.controllerFieldFits t.cTx 1 && t.controllerFieldFits t.cTy 1
  && t.controllerFieldFits t.cBat 1 && t.controllerFieldFits t.cTrig 1
  && LayoutTable.recordFieldFits 0x15 t.hHome 6 && LayoutTable.recordFieldFits 0x15 t.hPos 6
  && LayoutTable.recordFieldFits 0x15 t.hQuat 8
  && LayoutTable.recordFieldFits 0x36 t.bVal 1

/-- Some admitted table, which shows that R88 can be met and makes `Layout` an inhabited type. It is no claim about a
device, and nothing in the machine uses it. -/
def LayoutTable.someAdmitted : LayoutTable :=
  { lC := 63, cPos := 2, cQuat := 2, cBtn := 2, cTx := 2, cTy := 2, cBat := 2, cTrig := 2,
    hHome := 2, hPos := 2, hQuat := 2, bVal := 2 }

/-- An admitted layout table together with the proof of it: "A model refuses to instantiate NDD with a table that fails
any of them" (30_encoding.md R88), so a table that fails cannot be built into a state. -/
structure Layout where
  /-- The offsets. -/
  table : LayoutTable := LayoutTable.someAdmitted
  /-- R88 holds of them. -/
  ok : table.admitted = true := by decide
deriving DecidableEq, Repr, Inhabited

end Sys2Proof
end

