-- ==== Sys2Proof/Decode.lean ====
section
/-! DEFINITION. Decoding of the two kinds of input of NDD, the command word (30_encoding.md R80 to R84) and the report
tag (R85), each total; then the encoder, written from the same tables. -/

namespace Sys2Proof

/-- TAG_DUAL (00_scope.md R5). -/
def tagDual : Byte := 0xA5#8

/-- TAG_HMD (00_scope.md R5). -/
def tagHmd : Byte := 0xA6#8

/-- `decode_cmd` of 30_encoding.md R83; `none` is ILLEGAL. -/
def decodeCmd (cmd : Word) : Option Instr :=
  if cmd.extractLsb' 0 4 = 0x1#4 ∧ cmd.extractLsb' 16 16 = 0#16 then
    some (.decrypt (cmd.extractLsb' 4 4) (cmd.extractLsb' 8 8))
  else if cmd.extractLsb' 0 4 = 0x2#4 ∧ cmd.extractLsb' 4 28 = 0#28 then
    some .decode
  else
    none

/-- The frame a report tag selects (30_encoding.md R85, 41_frame_decoder.md R124). -/
def decodeTag (tag : Byte) : Instr :=
  if tag = tagDual then .frameA5
  else if tag = tagHmd then .frameA6
  else .frameOther tag

/-- The DECRYPT command word: reserved 31:16 zero, BR in 15:8, N in 7:4, OP = 1 (30_encoding.md R80). -/
def decryptWord (n : BitVec 4) (br : BitVec 8) : Word := 0#16 ++ br ++ n ++ 0x1#4

/-- The DECODE command word (30_encoding.md R80, R83). -/
def decodeWord : Word := 0x00000002#32

/-- How many bits spec/opcode_table.json gives an instruction's row: a 32-bit command word or an 8-bit report tag. -/
def Instr.bits : Instr → Nat
  | .decrypt _ _ => 32
  | .decode => 32
  | .frameA5 => 8
  | .frameA6 => 8
  | .frameOther _ => 8

/-- The word of an instruction, numbered as spec/opcode_table.json numbers it (30_encoding.md R80, R85). -/
def encode : Instr → Nat
  | .decrypt n br => (decryptWord n br).toNat
  | .decode => decodeWord.toNat
  | .frameA5 => tagDual.toNat
  | .frameA6 => tagHmd.toNat
  | .frameOther tag => tag.toNat

/-- The instruction the decoder reads from `nbits` bits `w`: 32 bits are a command word, given whole to `decodeCmd`
(30_encoding.md R96); 8 bits are the tag byte RB[0] of a report, given to `decodeTag`. Nothing else is decoded. -/
def decodeTableWord (nbits w : Nat) : Option Instr :=
  if nbits = 32 then decodeCmd (BitVec.ofNat 32 w)
  else if nbits = 8 then some (decodeTag (BitVec.ofNat 8 w))
  else none

end Sys2Proof
end

