-- ==== Sys2Proof/Config.lean ====
section
/-! DEFINITION. What an instantiation of NDD fixes and what the spec leaves unspecified, as constants with no body: no
proof can see their values, so a claim is true whatever they are. -/

namespace Sys2Proof

/-- LAYOUT[0], an admitted table fixed when the device is built (00_scope.md R7, 10_state.md R36). DESIGN CHOICE, log
entry 2; safe: any admitted table. -/
opaque Config.layout0 : Layout

/-- LAYOUT[1], as `Config.layout0`. -/
opaque Config.layout1 : Layout

/-- The unspecified word that the `k`-th read of RB, WB or OBS made while BUSY = 1 returns: "A model gives it a free
value (a draw)" (20_memory.md R59, 93_implementation_defined.md I3). DESIGN CHOICE, log entry 6; safe. -/
opaque Config.busyRead : Nat → Word

end Sys2Proof
end

