-- ==== Sys2Proof/Machine/State.lean ====
section
/-! DEFINITION. The state of NDD (10_state.md R20), as plain data, and its value after reset (R37). The buffers RB, WB
and OBS stand in one memory at their bus addresses (20_memory.md R51); KEY, CMD and irq have no storage (R25, R32, R34)
and are definitions of other files. -/

namespace Sys2Proof.Machine

/-- Why a step of the model stops with a fault. NDD itself has no trap (60_exceptions.md R186); bus errors and command
rejections are next states, not faults. -/
inductive Fault where
  /-- A command or a host read uses the byte at this bus address, which nothing has written: "a model treats ... a
  command that reads an unwritten cell as a fault of the model" (10_state.md R37, 93_implementation_defined.md I2).
  Raised by DECRYPT, DECODE, the frames and host reads. Safe: the device would go on with an unspecified value. -/
  | unwritten (addr : Nat)
  /-- The engine performs a DECRYPT with n < 2, outside the cipher's domain (40_cipher.md R101). Raised by DECRYPT; no
  state reachable from reset meets it, since the command is rejected at its write (42_commands.md R161). Safe. -/
  | cipherDomain (n : Nat)
  /-- The engine performs a DECODE with WOFF not in 1..4, for which there is no crypt region (41_frame_decoder.md R120).
  Raised by DECODE; no state reachable from reset meets it (42_commands.md R161). Safe. -/
  | cryptRegion (woff : Nat)
  /-- BUSY = 1 but no legal command is latched (42_commands.md R163: "always DECRYPT or DECODE here"). Raised by the
  engine step; no state reachable from reset meets it. Safe. -/
  | noCommand
deriving DecidableEq, Repr

/-- Why a step of the model is refused. -/
inductive Refusal where
  /-- An instruction without a meaning, by its mnemonic. Raised by no arm of `exec`: every instruction has a meaning.
  Safe. -/
  | notModelled (mnemonic : String)
deriving DecidableEq, Repr

/-- The command error codes of 60_exceptions.md R180. Codes 4..15 are "never produced", so they have no constructor. -/
inductive ErrCode where
  /-- NONE, code 0. -/
  | none
  /-- ILLEGAL_CMD, code 1. -/
  | illegalCmd
  /-- N_TOO_SMALL, code 2. -/
  | nTooSmall
  /-- NOT_CONFIGURED, code 3. -/
  | notConfigured
deriving DecidableEq, Repr

/-- The fields of STATUS (10_state.md R29). The reserved bits are hard-wired zero and have no storage. -/
structure Status where
  /-- BUSY, bit 0. -/
  busy : Bool
  /-- DONE, bit 1. -/
  done : Bool
  /-- OVR, bit 2. -/
  ovr : Bool
  /-- ERR, bits 7:4. -/
  err : ErrCode
  /-- OBS_COUNT, bits 12:8. -/
  obsCount : BitVec 5
deriving DecidableEq, Repr

/-- The fields of CONFIG (10_state.md R27). The reserved bits 30:10 are hard-wired zero and have no storage. -/
structure ConfigReg where
  /-- BO, bit 0: crypt-region words most-significant byte first (0) or least-significant byte first (1). -/
  bo : Bool
  /-- WOFF, bits 3:1: byte offset of the crypt region. -/
  woff : BitVec 3
  /-- PSCALE, bit 4: pose position unit. -/
  pscale : Bool
  /-- HSCALE, bit 5: home position unit. -/
  hscale : Bool
  /-- ZU, bit 6: position Z is unsigned. -/
  zu : Bool
  /-- TXINV, bit 7: touch-pad X sign inversion. -/
  txinv : Bool
  /-- TYINV, bit 8: touch-pad Y sign inversion. -/
  tyinv : Bool
  /-- LSEL, bit 9: layout table select. -/
  lsel : Bool
  /-- VALID, bit 31: the host has selected a revision. -/
  valid : Bool
deriving DecidableEq, Repr

/-- The field of CTRL (10_state.md R31). -/
structure Ctrl where
  /-- IE, bit 0: the interrupt enable. -/
  ie : Bool
deriving DecidableEq, Repr

/-- The record an observation came from (30_encoding.md R91, SRC). -/
inductive Source where
  /-- The controller record at base 1, "controller 0". -/
  | controller0
  /-- The controller record at base 64 - L_C, "controller 1". -/
  | controller1
  /-- The headset/base record at 0x15. -/
  | headset
  /-- The base-station record at 0x36. -/
  | baseStation
deriving DecidableEq, Repr

/-- The analog channels (30_encoding.md R91, ANALOG INDEX). -/
inductive Channel where
  | touchX
  | touchY
  | battery
  | trigger
  | baseRaw
deriving DecidableEq, Repr

/-- A position triple of integers (41_frame_decoder.md R140). -/
structure Position where
  x : Int
  y : Int
  z : Int
deriving DecidableEq, Repr

/-- An output quaternion of integers in units of 1/16384 (41_frame_decoder.md R141). -/
structure Quaternion where
  w : Int
  x : Int
  y : Int
  z : Int
deriving DecidableEq, Repr

/-- One typed output item of a DECODE (00_scope.md R16, 30_encoding.md R90 to R95), as `emit` takes it. -/
inductive Observation where
  /-- A POSE entry (R92). -/
  | pose (src : Source) (pos : Position) (pscaled : Bool) (quat : Quaternion)
  /-- A HOME entry (R93). -/
  | home (src : Source) (pos : Position) (pscaled : Bool)
  /-- A BUTTON entry (R94). -/
  | button (src : Source) (index : Nat) (pressed : Bool)
  /-- An ANALOG entry (R95): the value is num / den. -/
  | analog (src : Source) (ch : Channel) (num : Int) (den : Nat) (raw : Byte)
deriving DecidableEq, Repr

/-- What the host port answered to the last host access (00_scope.md R12, 60_exceptions.md R185: "Exactly one outcome
is reported per access"). The MODEL's own; DESIGN CHOICE, log entry 5. -/
inductive Response where
  /-- No access since reset. -/
  | none
  /-- A write completed with no error response (a dropped write included, 20_memory.md R58). -/
  | written
  /-- A read returned this word. -/
  | data (w : Word)
  /-- The access ended with an error response at this address (60_exceptions.md R181). -/
  | busError (addr : BitVec 12)
deriving DecidableEq, Repr

/-- The contents of RB, WB and OBS as (bus address, byte) pairs. An address that is not listed holds no value: nothing
has written it (10_state.md R37). -/
abbrev Memory := List Host.Cell

/-- The canonical form of a memory: addresses strictly rising. (An unlisted address reads as no value, which no entry
can equal.) -/
abbrev Memory.wf (m : Memory) : Prop := m.Pairwise (fun c d => c.1 < d.1)

/-- The state of NDD. -/
structure State where
  /-- RB, WB and OBS (10_state.md R23, R24, R26) at their bus addresses (20_memory.md R51). -/
  mem : Memory
  /-- CONFIG (R27). -/
  config : ConfigReg
  /-- STATUS (R29). -/
  status : Status
  /-- CTRL (R31). -/
  ctrl : Ctrl
  /-- LC, the latched command (R33): `none` is "none latched". -/
  lc : Option Word
  /-- LAYOUT[0] (R36). No step writes it. -/
  layout0 : Layout
  /-- LAYOUT[1] (R36). No step writes it. -/
  layout1 : Layout
  /-- The MODEL's own: the observation list L of the engine step under way (41_frame_decoder.md R124); empty between
  engine steps. DESIGN CHOICE, log entry 3. -/
  obsList : List Observation
  /-- The MODEL's own: the pending events of the outside world, the next one first. DESIGN CHOICE, log entry 4. -/
  inputs : List Input
  /-- The MODEL's own: the answer to the last host access. DESIGN CHOICE, log entry 5. -/
  response : Response
  /-- The MODEL's own: how many unspecified words have been drawn (20_memory.md R59). DESIGN CHOICE, log entry 6. -/
  draws : Nat
deriving DecidableEq, Repr

/-- CONFIG after reset: 0x00000000 (10_state.md R37). -/
def ConfigReg.reset : ConfigReg :=
  { bo := false, woff := 0#3, pscale := false, hscale := false, zu := false, txinv := false, tyinv := false,
    lsel := false, valid := false }

/-- STATUS after reset: 0x00000000 (10_state.md R37). -/
def Status.reset : Status :=
  { busy := false, done := false, ovr := false, err := .none, obsCount := 0#5 }

/-- CTRL after reset: 0x00000000 (10_state.md R37). -/
def Ctrl.reset : Ctrl := { ie := false }

/-- NDD right after reset (10_state.md R37, 70_reset_and_hazards.md R200): the registers at zero, no command latched,
every cell of RB, WB and OBS unwritten, the layout tables at the instantiation's values; of the model's own fields, no
observation, no pending event, no response and no draw (log entries 3 to 6). -/
def State.reset : State :=
  { mem := [], config := ConfigReg.reset, status := Status.reset, ctrl := Ctrl.reset, lc := none,
    layout0 := Config.layout0, layout1 := Config.layout1,
    obsList := [], inputs := [], response := .none, draws := 0 }

end Sys2Proof.Machine
end

