-- ==== Sys2Proof/Machine/Ops.lean ====
section
/-! DEFINITION. The named operations over memory and registers: reading and writing bytes and words of the buffers,
rejecting a command and acknowledging it (60_exceptions.md R182, R187), accepting and completing one (42_commands.md
R162, R163), and the answers of the host port. -/

namespace Sys2Proof.Machine

open Host (Outcome)

/-! ### Addresses (20_memory.md R51) -/

/-- The bus address of RB[0]. -/
def rbBase : Nat := 0x000

/-- The bus address of CMD. -/
def cmdAddr : BitVec 12 := 0x040#12

/-- The bus address of WB[0]. -/
def wbBase : Nat := 0x080

/-- The bus address of OBS[0].w[0]. -/
def obsBase : Nat := 0x100

/-! ### Bytes -/

/-- The byte at a bus address, `none` if nothing has written it: the one definition of what an unlisted address reads
as (10_state.md R37). -/
def Memory.read? : Memory → Nat → Option Byte
  | [], _ => none
  | (k, b) :: m, a => if k = a then some b else Memory.read? m a

/-- `n` bytes from bus address `a` on; a byte nothing has written is a fault (93_implementation_defined.md I2). -/
def Memory.readBlock (m : Memory) (a : Nat) : Nat → Except Fault (List Byte)
  | 0 => .ok []
  | n + 1 =>
    match m.read? a with
    | none => .error (.unwritten a)
    | some b =>
      match Memory.readBlock m (a + 1) n with
      | .error f => .error f
      | .ok bs => .ok (b :: bs)

/-- The cells of a run of bytes from bus address `a` on. -/
def cellsAt (a : Nat) : List Byte → Memory
  | [] => []
  | b :: bs => (a, b) :: cellsAt (a + 1) bs

/-- `m` with the bytes `bs` stored from bus address `a` on, in canonical form. Every store to RB, WB or OBS is one. -/
def Memory.writeBlock (m : Memory) (a : Nat) (bs : List Byte) : Memory :=
  m.filter (fun c => decide (c.1 < a)) ++ cellsAt a bs ++ m.filter (fun c => decide (a + bs.length ≤ c.1))

/-! ### Words -/

/-- The four bytes of a bus word, lowest address first: the fixed little-endian lanes of 20_memory.md R56. (Of a WB or
OBS word only the whole is ever seen, R57, R60; log entry 8.) -/
def wordBytes (w : Word) : List Byte :=
  [w.extractLsb' 0 8, w.extractLsb' 8 8, w.extractLsb' 16 8, w.extractLsb' 24 8]

/-- The bus word of four bytes, lowest address first: `{b3, b2, b1, b0}` (20_memory.md R56). -/
def wordOfBytes (b0 b1 b2 b3 : Byte) : Word := b3 ++ b2 ++ b1 ++ b0

/-- The word at bus address `a`; a word with a byte nothing has written is a fault. -/
def Memory.readWord (m : Memory) (a : Nat) : Except Fault Word :=
  match m.readBlock a 4 with
  | .ok [b0, b1, b2, b3] => .ok (wordOfBytes b0 b1 b2 b3)
  | .ok _ => .error (.unwritten a)
  | .error f => .error f

/-- `n` words from bus address `a` on. -/
def Memory.readWords (m : Memory) (a : Nat) : Nat → Except Fault (List Word)
  | 0 => .ok []
  | n + 1 =>
    match m.readWord a with
    | .error f => .error f
    | .ok w =>
      match Memory.readWords m (a + 4) n with
      | .error f => .error f
      | .ok ws => .ok (w :: ws)

/-- `m` with the words `ws` stored from bus address `a` on. -/
def Memory.writeWords (m : Memory) (a : Nat) (ws : List Word) : Memory :=
  m.writeBlock a (ws.flatMap wordBytes)

/-- RB[i] (00_scope.md R11), `none` if nothing has written it. -/
def State.rb? (s : State) (i : Nat) : Option Byte := s.mem.read? (rbBase + i)

/-- WB[i] (00_scope.md R11), at 0x080 + 4i (20_memory.md R57). -/
def State.wb (s : State) (i : Nat) : Except Fault Word := s.mem.readWord (wbBase + 4 * i)

/-- OBS[j].w[m] (00_scope.md R11), at 0x100 + 32j + 4m (20_memory.md R60). -/
def State.obs (s : State) (j m : Nat) : Except Fault Word := s.mem.readWord (obsBase + 32 * j + 4 * m)

/-- The report: the 64 bytes of RB (30_encoding.md R85). A report with an unwritten byte is a fault: "A DECODE whose RB
holds an unwritten byte reads an unspecified value, and a model faults it" (70_reset_and_hazards.md R204). -/
def State.report (s : State) : Except Fault (List Byte) := s.mem.readBlock rbBase 64

/-- WB[0 .. n-1] (40_cipher.md R108). -/
def State.wbWords (s : State) (n : Nat) : Except Fault (List Word) := s.mem.readWords wbBase n

/-- LAYOUT[CONFIG.LSEL] (10_state.md R36, 41_frame_decoder.md R129). -/
def State.layout (s : State) : LayoutTable :=
  if s.config.lsel then s.layout1.table else s.layout0.table

/-! ### Writing one field -/

/-- `s` with the buffers `m`. -/
def State.setMem (s : State) (m : Memory) : State := { s with mem := m }

/-- `s` with CONFIG `c`. -/
def State.setConfig (s : State) (c : ConfigReg) : State := { s with config := c }

/-- `s` with CTRL `c`. -/
def State.setCtrl (s : State) (c : Ctrl) : State := { s with ctrl := c }

/-- `s` with the observation list `l`. -/
def State.setObsList (s : State) (l : List Observation) : State := { s with obsList := l }

/-- `s` with the pending events `l`. -/
def State.setInputs (s : State) (l : List Input) : State := { s with inputs := l }

/-- `s` with the answer `r` of the host port. -/
def State.setResponse (s : State) (r : Response) : State := { s with response := r }

/-- `s` with STATUS.OBS_COUNT the length of a list of observations (41_frame_decoder.md R124). -/
def State.setObsCount (s : State) (n : Nat) : State :=
  { s with status := { s.status with obsCount := BitVec.ofNat 5 n } }

/-- `emit` for a list of observations: appends them to L (00_scope.md R12). -/
def State.emit (s : State) (l : List Observation) : State := { s with obsList := s.obsList ++ l }

/-! ### Taking a command's exception, and the return from it -/

/-- `raise CmdError(code)`, that is `reject(code)` (60_exceptions.md R182, 42_commands.md R166): NDD's only exception.
"A rejected command saves no state and changes nothing but STATUS.DONE and STATUS.ERR" (R186). -/
def State.raiseCmdError (s : State) (code : ErrCode) : State :=
  { s with status := { s.status with done := true, err := code } }

/-- The STATUS write of 10_state.md R30, write-1-to-clear on DONE and OVR: how "The host acknowledges completion or an
error" (60_exceptions.md R187), in the place of a return from an exception. -/
def State.acknowledge (s : State) (v : Word) : State :=
  { s with status := { s.status with
      done := s.status.done && !v.getLsbD 1
      ovr := s.status.ovr && !v.getLsbD 2 } }

/-! ### Accepting and completing a command -/

/-- `accept(cmd)` (42_commands.md R162). -/
def State.accept (s : State) (cmd : Word) : State :=
  { s with lc := some cmd, status := { s.status with busy := true, done := false, err := .none } }

/-- The end of the engine step: `STATUS.BUSY <- 0; STATUS.DONE <- 1` (42_commands.md R163), and LC "cleared at
completion" (10_state.md R20). -/
def State.complete (s : State) : State :=
  { s with lc := none, status := { s.status with busy := false, done := true } }

/-- A command presented to the acceptance rule while idle (42_commands.md R160, R161): rejected with the code of the
check that fails, or accepted. -/
def State.present (s : State) (cmd : Word) (check : Option ErrCode) : State :=
  match check with
  | some code => s.raiseCmdError code
  | none => s.accept cmd

/-! ### The host port's answers -/

/-- `raise BusError(addr)` (00_scope.md R12, 60_exceptions.md R181): an error response and no change of state. -/
def State.raiseBusError (s : State) (addr : BitVec 12) : State := { s with response := .busError addr }

/-- A write dropped because BUSY = 1 (20_memory.md R58): it sets OVR and completes with no error response. -/
def State.dropWrite (s : State) : State :=
  { s with status := { s.status with ovr := true }, response := .written }

/-- An unspecified word (20_memory.md R59): a fresh draw, with no effect on the spec's state. -/
def State.drawRead (s : State) : State :=
  { s with response := .data (Config.busyRead s.draws), draws := s.draws + 1 }

/-- The reset input (70_reset_and_hazards.md R200, R201): every field at its value of 10_state.md R37, the buffers
unwritten, a command in progress abandoned; the layout tables, the events still to come and the draw counter stay. -/
def State.resetBlock (s : State) : State :=
  { s with mem := [], config := ConfigReg.reset, status := Status.reset, ctrl := Ctrl.reset, lc := none,
           obsList := [], response := .none }

end Sys2Proof.Machine
end

