-- ==== Sys2Proof/Machine/Flags.lean ====
section
/-! DEFINITION. The flags of NDD (10_state.md R38) as the host sees them: the words of STATUS, CONFIG and CTRL, the
CONFIG and CTRL writes, the irq line, and the operand checks that decide a command's error code. -/

namespace Sys2Proof.Machine

/-- The code of 60_exceptions.md R180. -/
def ErrCode.code : ErrCode → BitVec 4
  | .none => 0#4
  | .illegalCmd => 1#4
  | .nTooSmall => 2#4
  | .notConfigured => 3#4

/-- STATUS as it reads (10_state.md R29): BUSY 0, DONE 1, OVR 2, ERR 7:4, OBS_COUNT 12:8, the rest 0. -/
def Status.word (st : Status) : Word :=
  0#19 ++ st.obsCount ++ st.err.code ++ 0#1 ++ BitVec.ofBool st.ovr ++ BitVec.ofBool st.done ++ BitVec.ofBool st.busy

/-- CONFIG as it reads (10_state.md R27): VALID 31, LSEL 9, TYINV 8, TXINV 7, ZU 6, HSCALE 5, PSCALE 4, WOFF 3:1, BO 0,
the rest 0. -/
def ConfigReg.word (c : ConfigReg) : Word :=
  BitVec.ofBool c.valid ++ 0#21 ++ BitVec.ofBool c.lsel ++ BitVec.ofBool c.tyinv ++ BitVec.ofBool c.txinv
    ++ BitVec.ofBool c.zu ++ BitVec.ofBool c.hscale ++ BitVec.ofBool c.pscale ++ c.woff ++ BitVec.ofBool c.bo

/-- The fields a CONFIG write of `v` stores (10_state.md R27, R28): bits 30:10 are discarded, all others stored exactly
as written. -/
def ConfigReg.ofWord (v : Word) : ConfigReg :=
  { bo := v.getLsbD 0, woff := v.extractLsb' 1 3, pscale := v.getLsbD 4, hscale := v.getLsbD 5, zu := v.getLsbD 6,
    txinv := v.getLsbD 7, tyinv := v.getLsbD 8, lsel := v.getLsbD 9, valid := v.getLsbD 31 }

/-- CTRL as it reads (10_state.md R31). -/
def Ctrl.word (c : Ctrl) : Word := 0#31 ++ BitVec.ofBool c.ie

/-- The field a CTRL write of `v` stores (10_state.md R31). -/
def Ctrl.ofWord (v : Word) : Ctrl := { ie := v.getLsbD 0 }

/-- The irq line: `irq = STATUS.DONE & CTRL.IE`, "at every moment" (10_state.md R34, 60_exceptions.md R184). -/
def State.irq (s : State) : Bool := s.status.done && s.ctrl.ie

/-- "WOFF in 1..4" (42_commands.md R161, 41_frame_decoder.md R120). -/
def ConfigReg.woffLegal (c : ConfigReg) : Bool := decide (1 ≤ c.woff.toNat) && decide (c.woff.toNat ≤ 4)

/-- The operand check of DECRYPT (42_commands.md R161): N_TOO_SMALL if n < 2. -/
def checkDecrypt (n : BitVec 4) : Option ErrCode := if n.toNat < 2 then some .nTooSmall else none

/-- The check of DECODE (42_commands.md R161): NOT_CONFIGURED if VALID = 0 or WOFF is not in 1..4. -/
def checkDecode (c : ConfigReg) : Option ErrCode :=
  if c.valid && c.woffLegal then none else some .notConfigured

/-- `check(c)` of 42_commands.md R161 for a decoded command word, the first failing check in priority order; `none` as
instruction is ILLEGAL. A report tag's frame is no command. -/
def commandCheck (c : ConfigReg) : Option Instr → Option ErrCode
  | none => some .illegalCmd
  | some (.decrypt n _) => checkDecrypt n
  | some .decode => checkDecode c
  | some .frameA5 => some .illegalCmd
  | some .frameA6 => some .illegalCmd
  | some (.frameOther _) => some .illegalCmd

end Sys2Proof.Machine
end

