-- ==== Sys2Proof/Machine/Cipher.lean ====
section
/-! DEFINITION. The block cipher engine (40_cipher.md) and the DECRYPT instruction built on it (R108, 42_commands.md
R164). -/

namespace Sys2Proof.Machine

open Host (Outcome)

/-- KEY (10_state.md R25): "it reads as the constant at all times". -/
def key : Nat → Word
  | 0 => 0x875BCC51#32
  | 1 => 0xA7637A66#32
  | 2 => 0x50960967#32
  | _ => 0xF8536C51#32

/-- DELTA (00_scope.md R5). -/
def delta : Word := 0x9E3779B9#32

/-- `rounds = br + floor(52 / n)` (40_cipher.md R102). -/
def roundCount (n br : Nat) : Nat := br + 52 / n

/-- `sum = (rounds * DELTA) mod 2^32` (40_cipher.md R103): a product of words, which is taken modulo 2^32 (00_scope.md
R10). -/
def initialSum (n br : Nat) : Word := BitVec.ofNat 32 (roundCount n br) * delta

/-- The mixing function MX (40_cipher.md R104). -/
def mx (y z sum : Word) (e p : Nat) : Word :=
  (((z >>> 5) ^^^ (y <<< 2)) + ((y >>> 3) ^^^ (z <<< 4)))
    ^^^ ((sum ^^^ y) + (key ((p &&& 3) ^^^ e) ^^^ z))

/-- `e = (sum >> 2) & 3` (40_cipher.md R105). -/
def roundE (sum : Word) : Nat := ((sum >>> 2) &&& 3#32).toNat

/-- One step on word `p` (40_cipher.md R106): z = v[(p-1) mod n], y = v[(p+1) mod n], then v[p] = v[p] - MX. Of a list
of n words every index is in range. -/
def cipherStep (n : Nat) (sum : Word) (e p : Nat) (v : List Word) : List Word :=
  let z := v.getD ((p + n - 1) % n) 0#32
  let y := v.getD ((p + 1) % n) 0#32
  v.set p (v.getD p 0#32 - mx y z sum e p)

/-- The steps on words p-1, p-2, .., 0 in this order (40_cipher.md R105: p from n-1 down to 1, then the wrap-around step
on word 0). -/
def cipherSweep (n : Nat) (sum : Word) (e : Nat) : Nat → List Word → List Word
  | 0, v => v
  | p + 1, v => cipherSweep n sum e p (cipherStep n sum e p v)

/-- The cipher's working variables between rounds (10_state.md R35): the running sum and the words. -/
structure CipherState where
  sum : Word
  words : List Word
deriving DecidableEq, Repr

/-- One round (40_cipher.md R105). -/
def cipherRound (n : Nat) (c : CipherState) : CipherState :=
  { sum := c.sum - delta, words := cipherSweep n c.sum (roundE c.sum) n c.words }

/-- `k` rounds. -/
def cipherRounds (n : Nat) : Nat → CipherState → CipherState
  | 0, c => c
  | k + 1, c => cipherRounds n k (cipherRound n c)

/-- `XXTEA_Decrypt(v, n, br)` (40_cipher.md R107), on a list of the n words. -/
def xxteaDecrypt (n br : Nat) (v : List Word) : List Word :=
  (cipherRounds n (roundCount n br) { sum := initialSum n br, words := v }).words

/-- DECRYPT performed by the engine (42_commands.md R164, R163): WB[0 .. n-1] decrypted in place, then completion. WB
words n and above are not read. -/
def performDecrypt (n br : Nat) (s : State) : Outcome State Fault Refusal :=
  if n < 2 then .fault (.cipherDomain n)
  else
    match s.wbWords n with
    | .error f => .fault f
    | .ok ws => .next (s.setMem (s.mem.writeWords wbBase (xxteaDecrypt n br ws))).complete

/-- DECRYPT (40_cipher.md R108). While BUSY = 0 the command is being written to CMD: it is checked and rejected or
accepted (42_commands.md R160 to R162, R166). While BUSY = 1 it is the latched command and the engine performs it
(R163, R164). Log entry 7. -/
def execDecrypt (n : BitVec 4) (br : BitVec 8) (s : State) : Outcome State Fault Refusal :=
  if s.status.busy then performDecrypt n.toNat br.toNat s
  else .next (s.present (decryptWord n br) (checkDecrypt n))

end Sys2Proof.Machine
end

