-- ==== Sys2Proof/Machine/Operands.lean ====
section
/-! DEFINITION. Operand forms: the fields of a report (30_encoding.md R89), the conversions of 41_frame_decoder.md R140
to R145 over them, and the packing of report bytes into cipher words (R121, R123). -/

namespace Sys2Proof.Machine

/-! ### Fields of a report -/

/-- Byte `i` of a report (00_scope.md R11). Every field read is inside RB[0..63] by 30_encoding.md R88, so the default
is never the value of a field. -/
def byteAt (r : List Byte) (i : Nat) : Byte := r.getD i 0#8

/-- `h16(a) = {RB[a], RB[a+1]}`, high byte first (30_encoding.md R89). -/
def h16 (r : List Byte) (a : Nat) : Half := byteAt r a ++ byteAt r (a + 1)

/-- `s16(v)`: v - 65536 if v[15] = 1, else v (00_scope.md R9). -/
def s16 (v : Half) : Int := if v.getLsbD 15 then (v.toNat : Int) - 65536 else (v.toNat : Int)

/-- `tc32(x)`, the 32-bit two's-complement pattern of an integer (00_scope.md R9). -/
def tc32 (x : Int) : Word := BitVec.ofInt 32 x

/-- `version_ok(b) = (RB[b] == 0x02 and RB[b+1] == 0x01)` (41_frame_decoder.md R128). -/
def versionOk (r : List Byte) (b : Nat) : Bool :=
  decide (byteAt r b = 0x02#8) && decide (byteAt r (b + 1) = 0x01#8)

/-! ### Conversions -/

/-- POS (41_frame_decoder.md R140): three 16-bit big-endian fields; Z is unsigned when ZU = 1. -/
def posAt (zu : Bool) (r : List Byte) (a : Nat) : Position :=
  { x := s16 (h16 r a)
    y := s16 (h16 r (a + 2))
    z := if zu then ((h16 r (a + 4)).toNat : Int) else s16 (h16 r (a + 4)) }

/-- QUAT (41_frame_decoder.md R141): source components (w, i, j, k), emitted as (W, X, Y, Z) = (w, i, k, -j). -/
def quatAt (r : List Byte) (a : Nat) : Quaternion :=
  { w := s16 (h16 r a)
    x := s16 (h16 r (a + 2))
    y := s16 (h16 r (a + 6))
    z := -(s16 (h16 r (a + 4))) }

/-- The numerator of TOUCH over 255 (41_frame_decoder.md R143). -/
def touchNum (b : Byte) (inv : Bool) : Int := if inv then 255 - 2 * (b.toNat : Int) else 2 * (b.toNat : Int) - 255

/-- ANALOG_DEN (00_scope.md R5). -/
def analogDen : Nat := 255

/-! ### Packing (41_frame_decoder.md R121, R123) -/

/-- `pack` of 41_frame_decoder.md R121: four bytes, most-significant first when BO = 0, least-significant first when
BO = 1. -/
def packWord (bo : Bool) (b0 b1 b2 b3 : Byte) : Word :=
  if bo then b3 ++ b2 ++ b1 ++ b0 else b0 ++ b1 ++ b2 ++ b3

/-- `unpack` of 41_frame_decoder.md R123: the four bytes of a word in the order BO. -/
def unpackWord (bo : Bool) (w : Word) : List Byte :=
  if bo then [w.extractLsb' 0 8, w.extractLsb' 8 8, w.extractLsb' 16 8, w.extractLsb' 24 8]
  else [w.extractLsb' 24 8, w.extractLsb' 16 8, w.extractLsb' 8 8, w.extractLsb' 0 8]

/-- The words of a run of bytes, four consecutive bytes each (41_frame_decoder.md R120, R121). -/
def packWords (bo : Bool) : List Byte → List Word
  | b0 :: b1 :: b2 :: b3 :: bs => packWord bo b0 b1 b2 b3 :: packWords bo bs
  | _ => []

/-- The bytes of a run of words (41_frame_decoder.md R123). -/
def unpackWords (bo : Bool) (ws : List Word) : List Byte := ws.flatMap (unpackWord bo)

/-- The crypt region of a report, the 60 bytes RB[WOFF .. WOFF+59] (41_frame_decoder.md R120). -/
def cryptRegion (woff : Nat) (r : List Byte) : List Byte := (r.drop woff).take 60

end Sys2Proof.Machine
end

