-- ==== Sys2Proof/Machine/Observation.lean ====
section
/-! DEFINITION. The encoding of observations as OBS entries of eight words (30_encoding.md R90 to R95) and the physical
values an entry denotes (00_scope.md R13). -/

namespace Sys2Proof.Machine

/-! ### Codes (30_encoding.md R91) -/

/-- SRC. -/
def Source.code : Source → BitVec 4
  | .controller0 => 0#4
  | .controller1 => 1#4
  | .headset => 2#4
  | .baseStation => 3#4

/-- ANALOG INDEX. -/
def Channel.code : Channel → BitVec 8
  | .touchX => 0#8
  | .touchY => 1#8
  | .battery => 2#8
  | .trigger => 3#8
  | .baseRaw => 4#8

/-- KIND of a POSE entry. -/
def kindPose : BitVec 4 := 0x1#4

/-- KIND of a BUTTON entry. -/
def kindButton : BitVec 4 := 0x2#4

/-- KIND of an ANALOG entry. -/
def kindAnalog : BitVec 4 := 0x3#4

/-- KIND of a HOME entry. -/
def kindHome : BitVec 4 := 0x4#4

/-! ### Entries -/

/-- The header, word 0 of an entry (30_encoding.md R90): PSCALED 16, INDEX 15:8, SRC 7:4, KIND 3:0, the rest 0. -/
def entryHeader (kind : BitVec 4) (src : Source) (index : BitVec 8) (pscaled : Bool) : Word :=
  0#15 ++ BitVec.ofBool pscaled ++ index ++ src.code ++ kind

/-- OBS_ENTRY_WORDS (00_scope.md R6). -/
def obsEntryWords : Nat := 8

/-- OBS_CAP (00_scope.md R6). -/
def obsCap : Nat := 22

/-- The eight words of an entry (30_encoding.md R92 to R95). -/
def Observation.encode : Observation → List Word
  | .pose src p pscaled q =>
    [entryHeader kindPose src 0#8 pscaled, tc32 p.x, tc32 p.y, tc32 p.z, tc32 q.w, tc32 q.x, tc32 q.y, tc32 q.z]
  | .home src p pscaled =>
    [entryHeader kindHome src 0#8 pscaled, tc32 p.x, tc32 p.y, tc32 p.z, 0#32, 0#32, 0#32, 0#32]
  | .button src index pressed =>
    [entryHeader kindButton src (BitVec.ofNat 8 index) false, if pressed then 1#32 else 0#32,
      0#32, 0#32, 0#32, 0#32, 0#32, 0#32]
  | .analog src ch num den raw =>
    [entryHeader kindAnalog src ch.code false, tc32 num, BitVec.ofNat 32 den, raw.zeroExtend 32,
      0#32, 0#32, 0#32, 0#32]

/-- All words of OBS after a DECODE that emitted `l` (41_frame_decoder.md R124): the 22 entries cleared, then the first
filled with the entries of `l` in order. -/
def obsImage (l : List Observation) : List Word :=
  (l.flatMap Observation.encode ++ List.replicate (obsCap * obsEntryWords) 0#32).take (obsCap * obsEntryWords)

/-! ### Physical values of an entry's words (00_scope.md R13): exact rationals -/

/-- POS_UNIT: 1/10000 if PSCALED = 1, and 1 if it is 0 (30_encoding.md R92). -/
def positionUnit (pscaled : Bool) : Rat := if pscaled then 1 / 10000 else 1

/-- Word `m` of an entry. -/
def entryWord (e : List Word) (m : Nat) : Word := e.getD m 0#32

/-- PSCALED of an entry (30_encoding.md R90). -/
def entryPscaled (e : List Word) : Bool := (entryWord e 0).getLsbD 16

/-- The physical position of a POSE or HOME entry: "(w1, w2, w3) as signed integers * u" (30_encoding.md R92, R93). -/
def physicalPosition (e : List Word) : Rat × Rat × Rat :=
  let u := positionUnit (entryPscaled e)
  (((entryWord e 1).toInt : Rat) * u, ((entryWord e 2).toInt : Rat) * u, ((entryWord e 3).toInt : Rat) * u)

/-- The physical quaternion (W, X, Y, Z) of a POSE entry: "(w4, w5, w6, w7) as signed integers / 16384" (R92). -/
def physicalQuaternion (e : List Word) : Rat × Rat × Rat × Rat :=
  (((entryWord e 4).toInt : Rat) / 16384, ((entryWord e 5).toInt : Rat) / 16384,
   ((entryWord e 6).toInt : Rat) / 16384, ((entryWord e 7).toInt : Rat) / 16384)

/-- The physical value of an ANALOG entry: "the exact rational num / den" (30_encoding.md R95). -/
def physicalAnalog (e : List Word) : Rat := ((entryWord e 1).toInt : Rat) / ((entryWord e 2).toNat : Rat)

/-- The state a BUTTON entry tells: pressed or not (30_encoding.md R94). -/
def physicalButton (e : List Word) : Bool := decide (entryWord e 1 = 1#32)

end Sys2Proof.Machine
end

