-- ==== Sys2Proof/Machine/Frame.lean ====
section
/-! DEFINITION. The records and frames of the frame decoder (41_frame_decoder.md R125 to R128, R142 to R149). A frame's
meaning writes the observation list L only. -/

namespace Sys2Proof.Machine

open Host (Outcome)

/-! ### Records -/

/-- A controller record's SRC code and index (30_encoding.md R91): the record at base 1 is controller 0. -/
def controllerSource (c : Fin 2) : Source := if c = 0 then .controller0 else .controller1

/-- BUTTONS (41_frame_decoder.md R142): six entries, index 6c + k, bits 7:6 ignored. -/
def buttons (m : Byte) (c : Fin 2) : List Observation :=
  (List.range 6).map fun k => .button (controllerSource c) (6 * c.val + k) (m.getLsbD k)

/-- An ANALOG observation of TOUCH (41_frame_decoder.md R143). -/
def touch (src : Source) (ch : Channel) (b : Byte) (inv : Bool) : Observation :=
  .analog src ch (touchNum b inv) analogDen b

/-- An ANALOG observation of UNIT (41_frame_decoder.md R144). -/
def unitAnalog (src : Source) (ch : Channel) (b : Byte) : Observation :=
  .analog src ch (b.toNat : Int) analogDen b

/-- An ANALOG observation of RAWBYTE (41_frame_decoder.md R145). -/
def rawByte (src : Source) (ch : Channel) (b : Byte) : Observation :=
  .analog src ch (b.toNat : Int) 1 b

/-- What CONTROLLER(c, b) emits when the record's version tag matches (41_frame_decoder.md R146). -/
def controllerFields (cfg : ConfigReg) (lay : LayoutTable) (r : List Byte) (c : Fin 2) (b : Nat) : List Observation :=
  let src := controllerSource c
  [.pose src (posAt cfg.zu r (b + lay.cPos)) cfg.pscale (quatAt r (b + lay.cQuat))]
  ++ buttons (byteAt r (b + lay.cBtn)) c
  ++ [touch src .touchX (byteAt r (b + lay.cTx)) cfg.txinv,
      touch src .touchY (byteAt r (b + lay.cTy)) cfg.tyinv,
      unitAnalog src .battery (byteAt r (b + lay.cBat)),
      unitAnalog src .trigger (byteAt r (b + lay.cTrig))]

/-- CONTROLLER(c, b) (41_frame_decoder.md R146, gate R128). -/
def controllerRecord (cfg : ConfigReg) (lay : LayoutTable) (r : List Byte) (c : Fin 2) (b : Nat) :
    List Observation :=
  if versionOk r b then controllerFields cfg lay r c b else []

/-- HEADSET(b) (41_frame_decoder.md R148, gate R128). -/
def headsetRecord (cfg : ConfigReg) (lay : LayoutTable) (r : List Byte) (b : Nat) : List Observation :=
  if versionOk r b then
    [.home .headset (posAt cfg.zu r (b + lay.hHome)) cfg.hscale,
     .pose .headset (posAt cfg.zu r (b + lay.hPos)) cfg.pscale (quatAt r (b + lay.hQuat))]
  else []

/-- BASE(b) (41_frame_decoder.md R149, gate R128). -/
def baseRecord (lay : LayoutTable) (r : List Byte) (b : Nat) : List Observation :=
  if versionOk r b then [rawByte .baseStation .baseRaw (byteAt r (b + lay.bVal))] else []

/-! ### Frames -/

/-- CTRL0_BASE (00_scope.md R5). -/
def ctrl0Base : Nat := 1

/-- CTRL1_BASE (00_scope.md R5). -/
def ctrl1Base (lay : LayoutTable) : Nat := 64 - lay.lC

/-- HS_BASE (00_scope.md R5). -/
def hsBase : Nat := 0x15

/-- BS_BASE (00_scope.md R5). -/
def bsBase : Nat := 0x36

/-- What FRAME_A5 emits (41_frame_decoder.md R125). -/
def frameA5 (cfg : ConfigReg) (lay : LayoutTable) (r : List Byte) : List Observation :=
  controllerRecord cfg lay r 0 ctrl0Base ++ controllerRecord cfg lay r 1 (ctrl1Base lay)

/-- What FRAME_A6 emits (41_frame_decoder.md R126). -/
def frameA6 (cfg : ConfigReg) (lay : LayoutTable) (r : List Byte) : List Observation :=
  headsetRecord cfg lay r hsBase ++ baseRecord lay r bsBase

/-- FRAME_A5 (41_frame_decoder.md R125): appends its observations to L. -/
def execFrameA5 (s : State) : Outcome State Fault Refusal :=
  match s.report with
  | .error f => .fault f
  | .ok r => .next (s.emit (frameA5 s.config s.layout r))

/-- FRAME_A6 (41_frame_decoder.md R126): appends its observations to L. -/
def execFrameA6 (s : State) : Outcome State Fault Refusal :=
  match s.report with
  | .error f => .fault f
  | .ok r => .next (s.emit (frameA6 s.config s.layout r))

/-- FRAME_OTHER (41_frame_decoder.md R127): "skip (emits nothing)", whatever the tag. -/
def execFrameOther (_tag : Byte) (s : State) : Outcome State Fault Refusal := .next s

end Sys2Proof.Machine
end

