-- ==== Sys2Proof/Machine/Decoder.lean ====
section
/-! DEFINITION. The DECODE instruction (42_commands.md R165): the body of 41_frame_decoder.md R124. -/

namespace Sys2Proof.Machine

open Host (Outcome)

/-- NW_PROD (00_scope.md R5). -/
def nwProd : Nat := 15

/-- DECODE_BASE_ROUNDS (00_scope.md R5). -/
def decodeBaseRounds : Nat := 1

/-- The 15 decrypted words of a report (41_frame_decoder.md R121, R122). -/
def decryptedWords (cfg : ConfigReg) (r : List Byte) : List Word :=
  xxteaDecrypt nwProd decodeBaseRounds (packWords cfg.bo (cryptRegion cfg.woff.toNat r))

/-- DECODE up to the dispatch (41_frame_decoder.md R121 to R124): WB holds the decrypted words, RB's crypt region their
bytes, and L is empty. -/
def decodeProlog (r : List Byte) (s : State) : State :=
  let ws := decryptedWords s.config r
  (s.setMem ((s.mem.writeWords wbBase ws).writeBlock (rbBase + s.config.woff.toNat)
    (unpackWords s.config.bo ws))).setObsList []

/-- The dispatch on the report tag (41_frame_decoder.md R124). -/
def dispatchFrame (tag : Byte) (s : State) : Outcome State Fault Refusal :=
  if tag = tagDual then execFrameA5 s
  else if tag = tagHmd then execFrameA6 s
  else execFrameOther tag s

/-- DECODE after the dispatch (41_frame_decoder.md R124): OBS cleared and filled from L, OBS_COUNT its length; then the
end of the engine step, with L discarded (log entry 3). -/
def decodeEpilog (s : State) : State :=
  (((s.setMem (s.mem.writeWords obsBase (obsImage s.obsList))).setObsCount s.obsList.length).setObsList []).complete

/-- DECODE performed by the engine (42_commands.md R165, R163). The tag is read before decryption; it is never in the
crypt region (R124). -/
def performDecode (s : State) : Outcome State Fault Refusal :=
  if s.config.woffLegal then
    match s.report with
    | .error f => .fault f
    | .ok r =>
      match dispatchFrame (byteAt r 0) (decodeProlog r s) with
      | .next t => .next (decodeEpilog t)
      | .fault f => .fault f
      | .refused q => .refused q
  else .fault (.cryptRegion s.config.woff.toNat)

/-- DECODE (42_commands.md R165). While BUSY = 0 the command is being written to CMD: it is checked and rejected or
accepted (R160 to R162, R166). While BUSY = 1 it is the latched command and the engine performs it (R163). Log entry
7. -/
def execDecode (s : State) : Outcome State Fault Refusal :=
  if s.status.busy then performDecode s
  else .next (s.present decodeWord (checkDecode s.config))

end Sys2Proof.Machine
end

