-- ==== Sys2Proof/Machine/Dispatch.lean ====
section
/-! DEFINITION. The one dispatch of instructions to their meanings: an arm per row of spec/opcode_table.json. -/

namespace Sys2Proof.Machine

open Host (Outcome)

def exec (i : Instr) (s : State) : Host.Outcome State Fault Refusal :=
  match i with
  | .decrypt n br => Sys2Proof.Machine.execDecrypt n br s
  | .decode => Sys2Proof.Machine.execDecode s
  | .frameA5 => Sys2Proof.Machine.execFrameA5 s
  | .frameA6 => Sys2Proof.Machine.execFrameA6 s
  | .frameOther tag => Sys2Proof.Machine.execFrameOther tag s

end Sys2Proof.Machine
end

