-- ==== Sys2Proof/Machine/HostPort.lean ====
section
/-! DEFINITION. What happens at the block's boundary: host accesses (20_memory.md R50 to R68), the CMD write
(42_commands.md R160), and the engine's turn (R163). -/

namespace Sys2Proof.Machine

open Host (Outcome)

/-- The regions of the address map (20_memory.md R51). -/
inductive Region where
  | rb
  | cmd
  | status
  | config
  | ctrl
  | wb
  | obs
  | reserved
deriving DecidableEq, Repr

/-- The address map (20_memory.md R51). -/
def regionOf (a : Nat) : Region :=
  if a < 0x040 then .rb
  else if a < 0x044 then .cmd
  else if a < 0x048 then .status
  else if a < 0x04C then .config
  else if a < 0x050 then .ctrl
  else if a < 0x080 then .reserved
  else if a < 0x0BC then .wb
  else if a < 0x100 then .reserved
  else if a < 0x3C0 then .obs
  else .reserved

/-- The width and alignment checks (20_memory.md R52, R53). -/
def accessFits (addr : BitVec 12) (width : BusWidth) : Bool :=
  decide (width = .w32) && decide (addr.toNat % 4 = 0)

/-- A read of RB, WB or OBS: the stored word while idle (20_memory.md R56, R57, R60), an unspecified word while busy
(R59). -/
def readBuffer (a : Nat) (s : State) : Outcome State Fault Refusal :=
  if s.status.busy then .next s.drawRead
  else
    match s.mem.readWord a with
    | .error f => .fault f
    | .ok w => .next (s.setResponse (.data w))

/-- One host read (20_memory.md R51 to R60; 10_state.md R28, R30 to R32). -/
def hostRead (addr : BitVec 12) (width : BusWidth) (s : State) : Outcome State Fault Refusal :=
  if accessFits addr width then
    match regionOf addr.toNat with
    | .rb => readBuffer addr.toNat s
    | .cmd => .next (s.setResponse (.data 0#32))
    | .status => .next (s.setResponse (.data s.status.word))
    | .config => .next (s.setResponse (.data s.config.word))
    | .ctrl => .next (s.setResponse (.data s.ctrl.word))
    | .wb => readBuffer addr.toNat s
    | .obs => readBuffer addr.toNat s
    | .reserved => .next (s.raiseBusError addr)
  else .next (s.raiseBusError addr)

/-- A write of RB or WB (20_memory.md R56, R57): stored while idle, dropped while busy (R58). -/
def writeBuffer (a : Nat) (v : Word) (s : State) : State :=
  if s.status.busy then s.dropWrite
  else (s.setMem (s.mem.writeWords a [v])).setResponse .written

/-- A write of CONFIG (10_state.md R28): stored while idle, dropped while busy (20_memory.md R58). -/
def writeConfig (v : Word) (s : State) : State :=
  if s.status.busy then s.dropWrite
  else (s.setConfig (ConfigReg.ofWord v)).setResponse .written

/-- A write of CMD (42_commands.md R160): dropped while busy; while idle the word is decoded (30_encoding.md R83), an
illegal word is rejected with ILLEGAL_CMD, and a command checks itself and is rejected or accepted (R161). -/
def writeCmd (cmd : Word) (s : State) : Outcome State Fault Refusal :=
  if s.status.busy then .next s.dropWrite
  else
    match decodeCmd cmd with
    | none => .next ((s.setResponse .written).raiseCmdError .illegalCmd)
    | some i => exec i (s.setResponse .written)

/-- One host write (20_memory.md R51 to R58; 10_state.md R28, R30, R31). The checks stand in the order of 60_exceptions.md
R185. -/
def hostWrite (addr : BitVec 12) (width : BusWidth) (v : Word) (s : State) : Outcome State Fault Refusal :=
  if accessFits addr width then
    match regionOf addr.toNat with
    | .rb => .next (writeBuffer addr.toNat v s)
    | .cmd => writeCmd v s
    | .status => .next ((s.acknowledge v).setResponse .written)
    | .config => .next (writeConfig v s)
    | .ctrl => .next ((s.setCtrl (Ctrl.ofWord v)).setResponse .written)
    | .wb => .next (writeBuffer addr.toNat v s)
    | .obs => .next (s.raiseBusError addr)
    | .reserved => .next (s.raiseBusError addr)
  else .next (s.raiseBusError addr)

/-- One host access (20_memory.md R62: atomic). -/
def hostAccess (a : HostAccess) (s : State) : Outcome State Fault Refusal :=
  match a with
  | .read addr width => hostRead addr width s
  | .write addr width v => hostWrite addr width v s

/-- The engine's step (42_commands.md R163): the latched command is decoded and performed. -/
def engineStep (s : State) : Outcome State Fault Refusal :=
  match s.lc with
  | none => .fault .noCommand
  | some cmd =>
    match decodeCmd cmd with
    | none => .fault .noCommand
    | some i => exec i s

/-- The engine's turn: its step is "enabled exactly when STATUS.BUSY = 1" (42_commands.md R163); "When idle (BUSY = 0)
it does nothing" (60_exceptions.md R194). -/
def engineTurn (s : State) : Outcome State Fault Refusal :=
  if s.status.busy then engineStep s else .next s

/-! ### Where an instruction stands before the step that runs it (log entry 9) -/

/-- The bus write that presents a command word (42_commands.md R160). -/
def cmdWriteInput (cmd : Word) : Input := .access (.write cmdAddr .w32 cmd)

/-- A report with the given tag and 63 zero bytes (30_encoding.md R85). -/
def reportWithTag (tag : Byte) : List Byte := tag :: List.replicate 63 0#8

/-- `s` idle, with a command word as the next host access. -/
def withCommandWrite (cmd : Word) (s : State) : State :=
  { s with status := { s.status with busy := false }, lc := none, inputs := cmdWriteInput cmd :: s.inputs }

/-- `s` with a report of the given tag in RB, a legal CONFIG (VALID = 1, WOFF = 1), a DECODE latched and the engine's
turn next. -/
def withReportLatched (tag : Byte) (s : State) : State :=
  { s with mem := s.mem.writeBlock rbBase (reportWithTag tag)
           config := { s.config with valid := true, woff := 1#3 }
           status := { s.status with busy := true, done := false, err := .none }
           lc := some decodeWord
           inputs := .engine :: s.inputs }

end Sys2Proof.Machine
end

