-- ==== Sys2Proof/Machine/Step.lean ====
section
/-! DEFINITION. The step of NDD: the next event of the outside world, or, when none is pending, the engine's own step
(42_commands.md R163: "a step that stays enabled is eventually taken"). -/

namespace Sys2Proof.Machine

/-- One step. `inputs` says which agent moves (log entry 4); with no event pending the engine takes its turn, which is
nothing while idle. -/
def step (s : State) : Host.Outcome State Fault Refusal :=
  match s.inputs with
  | [] => engineTurn s
  | .engine :: rest => engineTurn (s.setInputs rest)
  | .access a :: rest => hostAccess a (s.setInputs rest)
  | .reset :: rest => .next (s.setInputs rest).resetBlock

/-- `s` with the instruction `w` of `nbits` bits placed where the next step takes it: a command word as the next CMD
write, a report tag as RB[0] of a report whose DECODE is latched (log entry 9). -/
def State.withFetchWord (s : State) (nbits w : Nat) : State :=
  if nbits = 32 then withCommandWrite (BitVec.ofNat 32 w) s
  else if nbits = 8 then withReportLatched (BitVec.ofNat 8 w) s
  else s

end Sys2Proof.Machine
end

