-- ==== Sys2Proof/Machine/Forward.lean ====
section
/-! DEFINITION. The forward transform XXTEA_Encrypt (40_cipher.md R110). "NDD does not implement it": no step of the
machine uses it; claims about the round trip are stated with it. -/

namespace Sys2Proof.Machine

/-- The forward step on word `p` (40_cipher.md R110): y = v[p+1] (v[0] for p = n-1), and z, the word written last, is
v[p-1] (v[n-1] for p = 0). -/
def forwardStep (n : Nat) (sum : Word) (e p : Nat) (v : List Word) : List Word :=
  let z := v.getD ((p + n - 1) % n) 0#32
  let y := v.getD ((p + 1) % n) 0#32
  v.set p (v.getD p 0#32 + mx y z sum e p)

/-- The forward steps on words 0, 1, .., p-1 in this order. -/
def forwardSweep (n : Nat) (sum : Word) (e : Nat) : Nat → List Word → List Word
  | 0, v => v
  | p + 1, v => forwardStep n sum e p (forwardSweep n sum e p v)

/-- One forward round: the sum grows by DELTA first. -/
def forwardRound (n : Nat) (c : CipherState) : CipherState :=
  { sum := c.sum + delta, words := forwardSweep n (c.sum + delta) (roundE (c.sum + delta)) n c.words }

/-- `k` forward rounds. -/
def forwardRounds (n : Nat) : Nat → CipherState → CipherState
  | 0, c => c
  | k + 1, c => forwardRound n (forwardRounds n k c)

/-- `XXTEA_Encrypt(v, n, br)` (40_cipher.md R110), on a list of the n words. -/
def xxteaEncrypt (n br : Nat) (v : List Word) : List Word :=
  (forwardRounds n (roundCount n br) { sum := 0#32, words := v }).words

end Sys2Proof.Machine
end

