-- ==== Sys2Proof/Safety.lean ====
section
/-! DEFINITION. What counts as a lawful state and a safe stop, in the terms the claims use. -/

namespace Sys2Proof.Machine

/-- The bus addresses of RB, WB and OBS (20_memory.md R51). -/
def inBuffers (a : Nat) : Prop := a < 0x40 ∨ (0x80 ≤ a ∧ a < 0xBC) ∨ (0x100 ≤ a ∧ a < 0x3C0)

/-- The bytes of RB, WB and OBS are listed by whole bus words: a word is written wholly or not at all (20_memory.md R52,
R62). -/
def Memory.wholeWords (m : Memory) : Prop :=
  ∀ a b : Nat, a / 4 = b / 4 → (m.read? a).isSome = (m.read? b).isSome

/-- A state as the rules leave it: what every step keeps. -/
structure State.Lawful (s : State) : Prop where
  /-- The buffers' canonical form. -/
  memWf : s.mem.wf
  /-- Only RB, WB and OBS hold bytes (20_memory.md R51). -/
  memInBuffers : ∀ c ∈ s.mem, inBuffers c.1
  /-- Words are written whole (20_memory.md R62). -/
  memWholeWords : s.mem.wholeWords
  /-- While BUSY = 1 a command that passes its checks is latched (42_commands.md R162, R163: "always DECRYPT or DECODE
  here"). -/
  latched : s.status.busy = true → ∃ cmd, s.lc = some cmd ∧ commandCheck s.config (decodeCmd cmd) = none
  /-- While BUSY = 0 no command is latched (10_state.md R20, R33). -/
  idle : s.status.busy = false → s.lc = none
  /-- While BUSY = 1, DONE = 0 and ERR = 0 (42_commands.md R162). -/
  quiet : s.status.busy = true → s.status.done = false ∧ s.status.err = .none
  /-- OBS_COUNT <= 22 (41_frame_decoder.md R151). -/
  count : s.status.obsCount.toNat ≤ obsCap
  /-- No observation list outside an engine step (41_frame_decoder.md R124). -/
  noList : s.obsList = []

/-- The one way a lawful state stops: a use of a cell nothing has written (10_state.md R37). -/
def Fault.isUnwritten : Fault → Bool
  | .unwritten _ => true
  | .cipherDomain _ => false
  | .cryptRegion _ => false
  | .noCommand => false

/-- The RB bytes a DECODE leaves: those of `r` outside the crypt region, the decrypted ones inside (41_frame_decoder.md
R123). -/
def decodedReport (cfg : ConfigReg) (r : List Byte) : List Byte :=
  r.take cfg.woff.toNat ++ unpackWords cfg.bo (decryptedWords cfg r) ++ r.drop (cfg.woff.toNat + 60)

/-- The observation list a DECODE of the report `r` emits (41_frame_decoder.md R124). -/
def decodedList (cfg : ConfigReg) (lay : LayoutTable) (r : List Byte) : List Observation :=
  if byteAt r 0 = tagDual then frameA5 cfg lay (decodedReport cfg r)
  else if byteAt r 0 = tagHmd then frameA6 cfg lay (decodedReport cfg r)
  else []

end Sys2Proof.Machine
end

