-- ==== Sys2Proof/Certificates/Slice0/Obligations.lean ====
section
/-! DEFINITION. The statements for the provers, family by family: encodings, the step, acceptance of commands, the
cipher, DECRYPT, DECODE, the frames and conversions, the host port, reset and the invariant. -/

open Sys2Proof Sys2Proof.Machine

/-! ### Encodings -/

/-- Decode and encode agree: the decoder reads from the encoding of a well-formed instruction that instruction, every
operand at every value (30_encoding.md R80, R81, R85). -/
def Obligations.DecodeOfEncodeReturnsInstruction : Prop :=
  ∀ i : Instr, i.wellFormed = true → decodeTableWord i.bits (encode i) = some i

/-- The command decoder, by arithmetic on the word (30_encoding.md R83): DECRYPT exactly when cmd[3:0] = 1 and
cmd[31:16] = 0, with n = cmd[7:4] and br = cmd[15:8]; DECODE exactly for the word 2; ILLEGAL for every other word; and
the 2^12 operand pairs stand for 2^12 different words. -/
def Obligations.CommandDecoderIsExact : Prop :=
  (∀ (cmd : Word) (n : BitVec 4) (br : BitVec 8),
      decodeCmd cmd = some (.decrypt n br)
        ↔ cmd.toNat % 16 = 1 ∧ cmd.toNat / 2 ^ 16 = 0 ∧ n.toNat = cmd.toNat / 16 % 16
          ∧ br.toNat = cmd.toNat / 256 % 256)
  ∧ (∀ cmd : Word, decodeCmd cmd = some .decode ↔ cmd.toNat = 2)
  ∧ (∀ cmd : Word, decodeCmd cmd = none
        ↔ ¬ (cmd.toNat % 16 = 1 ∧ cmd.toNat / 2 ^ 16 = 0) ∧ cmd.toNat ≠ 2)
  ∧ (∀ (n n' : BitVec 4) (br br' : BitVec 8),
      decodeCmd (decryptWord n br) = some (.decrypt n br)
      ∧ (decryptWord n br = decryptWord n' br' → n = n' ∧ br = br'))

/-- Words written out bit by bit from the tables of 30_encoding.md R80 and R85 decode to what they stand for. -/
def Obligations.WrittenOutWordsDecode : Prop :=
  decodeTableWord 32 0b00000000000000000000000100100001 = some (.decrypt 2#4 1#8)
  ∧ decodeTableWord 32 0b00000000000000001111111111110001 = some (.decrypt 15#4 255#8)
  ∧ decodeTableWord 32 0b00000000000000000000000000000010 = some .decode
  ∧ decodeTableWord 32 0b00000000000000010000000000000010 = none
  ∧ decodeTableWord 32 0b00000000000000000000000000010010 = none
  ∧ decodeTableWord 8 0b10100101 = some .frameA5
  ∧ decodeTableWord 8 0b10100110 = some .frameA6
  ∧ decodeTableWord 8 0b00000000 = some (.frameOther 0#8)

/-! ### The step runs the decoded instruction -/

/-- On the engine's turn with BUSY = 1, the step runs `exec` of the instruction that LC decodes to (42_commands.md R163);
the turn is either the event at the head of the inputs, which is used up, or comes because no event is pending. That
`exec` while BUSY = 1 means the performance of the command is the model's choice (log entry 7). `inputs` is the model's
own (log entry 4). -/
def Obligations.EngineTurnRunsLatchedInstruction : Prop :=
  ∀ (s : State) (cmd : Word) (i : Instr),
    s.status.busy = true → s.lc = some cmd → decodeCmd cmd = some i →
      (s.inputs = [] → step s = exec i s)
      ∧ ∀ rest, s.inputs = .engine :: rest → step s = exec i { s with inputs := rest }

/-- An idle CMD write of a word that decodes to an instruction runs `exec` of that instruction, after the port has taken
the access and answered it (42_commands.md R160). That `exec` while BUSY = 0 means the check and the rejection or
acceptance of the command, not its performance (R163), is the model's choice (log entry 7). `inputs` and `response` are
the model's own (log entries 4, 5). -/
def Obligations.IdleCommandWriteRunsDecodedInstruction : Prop :=
  ∀ (s : State) (cmd : Word) (i : Instr) (rest : List Input),
    s.status.busy = false → s.inputs = .access (.write 0x040#12 .w32 cmd) :: rest → decodeCmd cmd = some i →
      step s = exec i { s with inputs := rest, response := .written }

/-- A DECODE performed by the engine runs the frame instruction its report tag decodes to, between packing, decryption
and re-serialisation on one side and the filling of OBS on the other (41_frame_decoder.md R124). (That `exec` performs
the command while BUSY = 1: log entry 7.) -/
def Obligations.DecodeRunsFrameOfReportTag : Prop :=
  ∀ (s : State) (r : List Byte),
    s.status.busy = true → 1 ≤ s.config.woff.toNat → s.config.woff.toNat ≤ 4 → s.report = .ok r →
      exec .decode s
        = match exec (decodeTag (byteAt r 0)) (decodeProlog r s) with
          | .next t => .next (decodeEpilog t)
          | .fault f => .fault f
          | .refused q => .refused q

/-! ### Accepting and rejecting a command -/

/-- The CMD write (42_commands.md R160, R161): dropped with OVR while busy; while idle rejected with the code of the
first check that fails, or accepted; with the whole next state. `inputs` and `response` are the model's own (log entries
4, 5). -/
def Obligations.CommandWriteDropsRejectsOrAccepts : Prop :=
  ∀ (s : State) (cmd : Word) (rest : List Input),
    s.inputs = .access (.write 0x040#12 .w32 cmd) :: rest →
      (s.status.busy = true →
        step s = .next { s with inputs := rest, response := .written, status := { s.status with ovr := true } })
      ∧ (s.status.busy = false → decodeCmd cmd = none →
        step s = .next { s with inputs := rest, response := .written,
                                status := { s.status with done := true, err := .illegalCmd } })
      ∧ (∀ n br, s.status.busy = false → decodeCmd cmd = some (.decrypt n br) → n.toNat < 2 →
        step s = .next { s with inputs := rest, response := .written,
                                status := { s.status with done := true, err := .nTooSmall } })
      ∧ (s.status.busy = false → decodeCmd cmd = some .decode →
          (s.config.valid = false ∨ ¬ (1 ≤ s.config.woff.toNat ∧ s.config.woff.toNat ≤ 4)) →
        step s = .next { s with inputs := rest, response := .written,
                                status := { s.status with done := true, err := .notConfigured } })
      ∧ (s.status.busy = false →
          ((∃ n br, decodeCmd cmd = some (.decrypt n br) ∧ 2 ≤ n.toNat)
            ∨ (decodeCmd cmd = some .decode ∧ s.config.valid = true
                ∧ 1 ≤ s.config.woff.toNat ∧ s.config.woff.toNat ≤ 4)) →
        step s = .next { s with inputs := rest, response := .written, lc := some cmd,
                                status := { s.status with busy := true, done := false, err := .none } })

/-- Acceptance (42_commands.md R162): the word latched, BUSY set, DONE and ERR cleared, irq low; OVR, OBS_COUNT and all
else kept. `inputs` and `response` are the model's own (log entries 4, 5). -/
def Obligations.AcceptedCommandIsLatched : Prop :=
  ∀ (s : State) (cmd : Word) (rest : List Input),
    s.inputs = .access (.write 0x040#12 .w32 cmd) :: rest → s.status.busy = false →
    commandCheck s.config (decodeCmd cmd) = none →
      ∃ t, step s = .next t ∧ t.lc = some cmd ∧ t.status.busy = true ∧ t.status.done = false
        ∧ t.status.err = .none ∧ t.status.ovr = s.status.ovr ∧ t.status.obsCount = s.status.obsCount
        ∧ t.irq = false
        ∧ t = { s with inputs := rest, response := .written, lc := t.lc, status := t.status }

/-- Rejection (42_commands.md R166): DONE set and ERR the code of the failing check, BUSY still 0, everything else
unchanged, irq high if IE = 1, and the engine's next turn does nothing. `inputs` and `response` are the model's own (log
entries 4, 5). -/
def Obligations.RejectedCommandChangesOnlyDoneAndErr : Prop :=
  ∀ (s : State) (cmd : Word) (rest : List Input) (code : ErrCode),
    s.inputs = .access (.write 0x040#12 .w32 cmd) :: rest → s.status.busy = false →
    commandCheck s.config (decodeCmd cmd) = some code →
      ∃ t, step s = .next t ∧ t.status.busy = false
        ∧ t = { s with inputs := rest, response := .written,
                       status := { s.status with done := true, err := code } }
        ∧ (s.ctrl.ie = true → t.irq = true)
        ∧ step { t with inputs := .engine :: rest } = .next t

/-! ### The cipher -/

/-- The round count and its bounds in NDD's domain (40_cipher.md R102). -/
def Obligations.RoundCountWithinBounds : Prop :=
  ∀ n br : Nat, 2 ≤ n → n ≤ 15 → br ≤ 255 →
    roundCount n br = br + 52 / n
    ∧ 3 ≤ 52 / n ∧ 52 / n ≤ 26 ∧ (52 / n = 3 ↔ n = 14 ∨ n = 15) ∧ (52 / n = 26 ↔ n = 2)
    ∧ 3 ≤ roundCount n br ∧ roundCount n br ≤ 281

/-- The production round count, initial sum and e values (40_cipher.md R111). -/
def Obligations.ProductionRoundsAndSum : Prop :=
  roundCount 15 1 = 4 ∧ initialSum 15 1 = 0x78DDE6E4#32
  ∧ (List.range 4).map (fun k => roundE (initialSum 15 1 - BitVec.ofNat 32 k * delta)) = [1, 2, 0, 2]

/-- One round (40_cipher.md R104, R105, R106), by arithmetic on the words: e = (sum >> 2) & 3, the running sum falls by
DELTA, and the new word p is the old one minus MX of y and z modulo 2^32, where y is the word above as this round left
it (the old word 0 for p = n-1), z the word below before this round touched it (the new word n-1 for p = 0), and the key
word of MX is KEY[(p & 3) ^ e], whose index is in 0..3. -/
def Obligations.RoundDataFlow : Prop :=
  ∀ (n : Nat) (c : CipherState), 2 ≤ n → c.words.length = n →
    let sum := c.sum.toNat
    let e := sum / 4 % 4
    let keyWord (i : Nat) : Nat := [0x875BCC51, 0xA7637A66, 0x50960967, 0xF8536C51].getD i 0
    let mix (y z p : Nat) : Nat :=
      (((z / 32) ^^^ (y * 4 % 2 ^ 32)) + ((y / 8) ^^^ (z * 16 % 2 ^ 32))) % 2 ^ 32
        ^^^ (((sum ^^^ y) + (keyWord ((p % 4) ^^^ e) ^^^ z)) % 2 ^ 32)
    let v (p : Nat) : Nat := (c.words.getD p 0#32).toNat
    let w (p : Nat) : Nat := ((cipherRound n c).words.getD p 0#32).toNat
    (cipherRound n c).words.length = n
    ∧ (cipherRound n c).sum.toNat = (sum + 2 ^ 32 - 0x9E3779B9) % 2 ^ 32
    ∧ ∀ p, p < n →
        (p % 4) ^^^ e < 4
        ∧ w p = (v p + 2 ^ 32 - mix (if p = n - 1 then v 0 else w (p + 1)) (if p = 0 then w (n - 1) else v (p - 1)) p)
                  % 2 ^ 32

/-- After the last round the running sum is 0 (40_cipher.md R107). -/
def Obligations.SumIsZeroAfterLastRound : Prop :=
  ∀ (n br : Nat) (v : List Word),
    (cipherRounds n (roundCount n br) { sum := initialSum n br, words := v }).sum = 0#32

/-- The round trip (40_cipher.md R110): decryption undoes the forward transform, for every n of at least 2, every br and
all word values. -/
def Obligations.DecryptUndoesEncrypt : Prop :=
  ∀ (n br : Nat) (v : List Word), 2 ≤ n → v.length = n → xxteaDecrypt n br (xxteaEncrypt n br v) = v

/-- The other round trip: the forward transform undoes decryption, so decryption loses nothing. Derived from
40_cipher.md R110 ("every step can be undone"). -/
def Obligations.EncryptUndoesDecrypt : Prop :=
  ∀ (n br : Nat) (v : List Word), 2 ≤ n → v.length = n → xxteaEncrypt n br (xxteaDecrypt n br v) = v

/-! ### DECRYPT -/

/-- DECRYPT completes (42_commands.md R163, R164; 40_cipher.md R108): with BUSY = 1, n of 2..15 and WB[0 .. n-1]
written, the engine replaces those words by their decryption and ends the command; every other byte of memory, OVR, ERR,
OBS_COUNT and every other field stay. (That `exec` performs the command while BUSY = 1: log entry 7.) -/
def Obligations.DecryptCompletesOnWrittenWords : Prop :=
  ∀ (s : State) (n : BitVec 4) (br : BitVec 8) (ws : List Word),
    s.status.busy = true → 2 ≤ n.toNat → ws.length = n.toNat →
    (∀ (i : Nat) (h : i < ws.length), s.wb i = .ok ws[i]) →
      ∃ t, exec (.decrypt n br) s = .next t
        ∧ (∀ i, i < n.toNat → t.wb i = .ok ((xxteaDecrypt n.toNat br.toNat ws).getD i 0#32))
        ∧ (∀ a, a < 0x80 ∨ 0x80 + 4 * n.toNat ≤ a → t.mem.read? a = s.mem.read? a)
        ∧ t = { s with mem := t.mem, lc := none, status := { s.status with busy := false, done := true } }

/-! ### DECODE -/

/-- DECODE completes (42_commands.md R163, R165; 41_frame_decoder.md R120 to R126, R129; 30_encoding.md R82): with BUSY =
1, WOFF in 1..4 and every byte of RB written,
- WB holds ws, the decryption with n = 15 and br = 1 of the fifteen words packed from RB[WOFF+4i .. WOFF+4i+3], most
  significant byte first when BO = 0 and last when BO = 1;
- RB holds r', the bytes of ws in the same order in the crypt region and the old bytes outside it;
- OBS holds the entries of l, the records of the report tag's frame read from r' with the layout table LAYOUT[1] when
  LSEL = 1 and LAYOUT[0] when LSEL = 0, in order, and zeros after them, and OBS_COUNT is their number;
- the command ends, and every other byte of memory, OVR, ERR and every other field stay.
The last clause but one names ws, r' and l as the model and other statements do. (That `exec`
performs the command while BUSY = 1: log entry 7.) `obsList` is the model's own (log entry 3). -/
def Obligations.DecodeCompletesOnWrittenReport : Prop :=
  ∀ (s : State) (r : List Byte),
    s.status.busy = true → 1 ≤ s.config.woff.toNat → s.config.woff.toNat ≤ 4 →
    r.length = 64 → (∀ i, i < 64 → s.rb? i = r[i]?) →
      let cfg := s.config
      let woff := cfg.woff.toNat
      let lay := if cfg.lsel = true then s.layout1.table else s.layout0.table
      let u (k : Nat) : Nat := (byteAt r (woff + k)).toNat
      let packed : List Word := (List.range 15).map fun i => BitVec.ofNat 32
        (if cfg.bo = true then u (4 * i) + 2 ^ 8 * u (4 * i + 1) + 2 ^ 16 * u (4 * i + 2) + 2 ^ 24 * u (4 * i + 3)
          else 2 ^ 24 * u (4 * i) + 2 ^ 16 * u (4 * i + 1) + 2 ^ 8 * u (4 * i + 2) + u (4 * i + 3))
      let ws := xxteaDecrypt 15 1 packed
      ∃ (t : State) (r' : List Byte) (l : List Observation), exec .decode s = .next t
        ∧ ws.length = 15 ∧ (∀ i, i < 15 → t.wb i = .ok (ws.getD i 0#32))
        ∧ t.report = .ok r' ∧ r'.length = 64
        ∧ (∀ i j, i < 15 → j < 4 → (byteAt r' (woff + 4 * i + j)).toNat
            = (ws.getD i 0#32).toNat / 256 ^ (if cfg.bo = true then j else 3 - j) % 256)
        ∧ (∀ i, i < 64 → (i < woff ∨ woff + 60 ≤ i) → t.rb? i = s.rb? i ∧ byteAt r' i = byteAt r i)
        ∧ l = (if byteAt r 0 = 0xA5#8 then
                controllerRecord cfg lay r' 0 1 ++ controllerRecord cfg lay r' 1 (64 - lay.lC)
              else if byteAt r 0 = 0xA6#8 then headsetRecord cfg lay r' 0x15 ++ baseRecord lay r' 0x36
              else [])
        ∧ (∀ (j m : Nat) (h : j < l.length), m < 8 → t.obs j m = .ok (l[j].encode.getD m 0#32))
        ∧ (∀ j m, l.length ≤ j → j < 22 → m < 8 → t.obs j m = .ok 0#32)
        ∧ t.status.obsCount.toNat = l.length
        ∧ (∀ a, (0x40 ≤ a ∧ a < 0x80) ∨ (0xBC ≤ a ∧ a < 0x100) ∨ 0x3C0 ≤ a → t.mem.read? a = s.mem.read? a)
        ∧ (ws = decryptedWords cfg r ∧ r' = decodedReport cfg r ∧ l = decodedList cfg s.layout r)
        ∧ t = { s with mem := t.mem, lc := none, obsList := [],
                       status := { s.status with busy := false, done := true, obsCount := t.status.obsCount } }

/-- The crypt region's bytes and the words of WB agree after DECODE, in the byte order BO (41_frame_decoder.md R121,
R123; 10_state.md R27): each word is its four bytes, most significant first when BO = 0 and last when BO = 1. (That
`exec` performs the command while BUSY = 1: log entry 7.) -/
def Obligations.BytesAndWordsAgreeAfterDecode : Prop :=
  ∀ s t : State, s.status.busy = true → exec .decode s = .next t →
    ∃ r, t.report = .ok r ∧ t.wbWords 15 = .ok (packWords s.config.bo (cryptRegion s.config.woff.toNat r))
      ∧ ∀ i, i < 15 →
          let u (j : Nat) : Nat := (byteAt r (s.config.woff.toNat + 4 * i + j)).toNat
          ∃ w, t.wb i = .ok w ∧ w.toNat
            = (if s.config.bo = true then u 0 + 2 ^ 8 * u 1 + 2 ^ 16 * u 2 + 2 ^ 24 * u 3
                else 2 ^ 24 * u 0 + 2 ^ 16 * u 1 + 2 ^ 8 * u 2 + u 3)

/-- "Packing and unpacking with the same bo are inverse to each other" (41_frame_decoder.md R123), and each is in the
order BO, by arithmetic on the bytes (R121, R123; 10_state.md R27): most significant byte first when BO = 0, last when
BO = 1. -/
def Obligations.PackAndUnpackAreInverse : Prop :=
  (∀ (bo : Bool) (ws : List Word), packWords bo (unpackWords bo ws) = ws)
  ∧ (∀ (bo : Bool) (k : Nat) (bs : List Byte), bs.length = 4 * k → unpackWords bo (packWords bo bs) = bs)
  ∧ (∀ (bo : Bool) (k : Nat) (bs : List Byte), bs.length = 4 * k →
      (packWords bo bs).length = k
      ∧ ∀ i, i < k →
          let u (j : Nat) : Nat := (byteAt bs (4 * i + j)).toNat
          ((packWords bo bs).getD i 0#32).toNat
            = (if bo = true then u 0 + 2 ^ 8 * u 1 + 2 ^ 16 * u 2 + 2 ^ 24 * u 3
                else 2 ^ 24 * u 0 + 2 ^ 16 * u 1 + 2 ^ 8 * u 2 + u 3))
  ∧ (∀ (bo : Bool) (ws : List Word),
      (unpackWords bo ws).length = 4 * ws.length
      ∧ ∀ i j, i < ws.length → j < 4 →
          (byteAt (unpackWords bo ws) (4 * i + j)).toNat
            = (ws.getD i 0#32).toNat / 256 ^ (if bo = true then j else 3 - j) % 256)

/-- The number of observations (41_frame_decoder.md R151): 11 for each valid controller record of a 0xA5 frame, 2 and 1
for the valid records of a 0xA6 frame, 0 for any other tag; never over 22. (That `exec` performs the command while BUSY
= 1: log entry 7.) -/
def Obligations.ObservationCountsOfFrames : Prop :=
  ∀ (s t : State) (r : List Byte), s.status.busy = true → s.report = .ok r → exec .decode s = .next t →
    let lay := if s.config.lsel = true then s.layout1.table else s.layout0.table
    ∃ r', t.report = .ok r'
      ∧ (byteAt r 0 = 0xA5#8 → t.status.obsCount.toNat
          = (if versionOk r' 1 then 11 else 0) + (if versionOk r' (64 - lay.lC) then 11 else 0))
      ∧ (byteAt r 0 = 0xA6#8 → t.status.obsCount.toNat
          = (if versionOk r' 0x15 then 2 else 0) + (if versionOk r' 0x36 then 1 else 0))
      ∧ (byteAt r 0 ≠ 0xA5#8 → byteAt r 0 ≠ 0xA6#8 → t.status.obsCount.toNat = 0)
      ∧ t.status.obsCount.toNat ≤ 22

/-- An unrecognised tag (41_frame_decoder.md R127): the frame itself emits nothing; the DECODE still decrypts RB in
place and leaves OBS cleared with OBS_COUNT = 0. (That `exec` performs the command while BUSY = 1: log entry 7.) -/
def Obligations.UnknownTagDecryptsAndEmitsNothing : Prop :=
  (∀ (tag : Byte) (s : State), tag ≠ 0xA5#8 → tag ≠ 0xA6#8 → exec (.frameOther tag) s = .next s)
  ∧ (∀ (s : State) (r : List Byte),
      s.status.busy = true → 1 ≤ s.config.woff.toNat → s.config.woff.toNat ≤ 4 → s.report = .ok r →
      byteAt r 0 ≠ 0xA5#8 → byteAt r 0 ≠ 0xA6#8 →
        ∃ t, exec .decode s = .next t ∧ t.status.obsCount = 0#5
          ∧ (∀ j m, j < 22 → m < 8 → t.obs j m = .ok 0#32)
          ∧ t.report = .ok (decodedReport s.config r)
          ∧ t.wbWords 15 = .ok (decryptedWords s.config r)
          ∧ t.status.done = true ∧ t.status.err = s.status.err)

/-- Statelessness (41_frame_decoder.md R153): two DECODEs that start from the same RB, CONFIG and selected layout table
end with the same RB, WB, OBS and OBS_COUNT, whatever else differs, the table that LSEL does not select (10_state.md R36)
among it. (That `exec` performs the command while BUSY = 1: log entry 7.) -/
def Obligations.DecodeDependsOnlyOnReportAndConfig : Prop :=
  ∀ (s₁ s₂ t₁ t₂ : State),
    s₁.status.busy = true → s₂.status.busy = true →
    s₁.config = s₂.config →
    (s₁.config.lsel = false → s₁.layout0 = s₂.layout0) → (s₁.config.lsel = true → s₁.layout1 = s₂.layout1) →
    (∀ i, i < 64 → s₁.rb? i = s₂.rb? i) →
    exec .decode s₁ = .next t₁ → exec .decode s₂ = .next t₂ →
      (∀ i, i < 64 → t₁.rb? i = t₂.rb? i) ∧ (∀ i, i < 15 → t₁.wb i = t₂.wb i)
      ∧ (∀ j m, j < 22 → m < 8 → t₁.obs j m = t₂.obs j m)
      ∧ t₁.status.obsCount = t₂.status.obsCount

/-! ### Frames and records -/

/-- The frames complete on a written report and change nothing but the observation list (41_frame_decoder.md R125, R126,
R127): FRAME_A5 emits its two controller records, FRAME_A6 its headset and base-station records, FRAME_OTHER nothing.
The layout table is LAYOUT[1] when LSEL = 1 and LAYOUT[0] when LSEL = 0 (R129, 10_state.md R36). `obsList` is the
model's own (log entry 3). -/
def Obligations.FramesEmitTheirRecords : Prop :=
  (∀ (s : State) (r : List Byte), s.report = .ok r →
    let lay := if s.config.lsel = true then s.layout1.table else s.layout0.table
    exec .frameA5 s
        = .next { s with obsList := s.obsList ++ (controllerRecord s.config lay r 0 1
                           ++ controllerRecord s.config lay r 1 (64 - lay.lC)) }
    ∧ exec .frameA6 s
        = .next { s with obsList := s.obsList ++ (headsetRecord s.config lay r 0x15 ++ baseRecord lay r 0x36) })
  ∧ (∀ (s : State) (tag : Byte), exec (.frameOther tag) s = .next s)

/-- The observations of the four records, in order (41_frame_decoder.md R142, R146, R148, R149, R150): nothing from a
record whose first two bytes are not 02 01. -/
def Obligations.RecordsEmitTheirFieldsInOrder : Prop :=
  ∀ (cfg : ConfigReg) (lay : LayoutTable) (r : List Byte) (b : Nat),
    let valid := decide ((byteAt r b).toNat = 2) && decide ((byteAt r (b + 1)).toNat = 1)
    (∀ (c : Fin 2) (src : Source), src = (if c = 0 then Source.controller0 else Source.controller1) →
      controllerRecord cfg lay r c b
        = if valid then
            let m := (byteAt r (b + lay.cBtn)).toNat
            [.pose src (posAt cfg.zu r (b + lay.cPos)) cfg.pscale (quatAt r (b + lay.cQuat)),
             .button src (6 * c.val) (decide (m % 2 = 1)), .button src (6 * c.val + 1) (decide (m / 2 % 2 = 1)),
             .button src (6 * c.val + 2) (decide (m / 4 % 2 = 1)), .button src (6 * c.val + 3) (decide (m / 8 % 2 = 1)),
             .button src (6 * c.val + 4) (decide (m / 16 % 2 = 1)),
             .button src (6 * c.val + 5) (decide (m / 32 % 2 = 1)),
             touch src .touchX (byteAt r (b + lay.cTx)) cfg.txinv,
             touch src .touchY (byteAt r (b + lay.cTy)) cfg.tyinv,
             unitAnalog src .battery (byteAt r (b + lay.cBat)),
             unitAnalog src .trigger (byteAt r (b + lay.cTrig))]
          else [])
    ∧ headsetRecord cfg lay r b
        = (if valid then
            [.home .headset (posAt cfg.zu r (b + lay.hHome)) cfg.hscale,
             .pose .headset (posAt cfg.zu r (b + lay.hPos)) cfg.pscale (quatAt r (b + lay.hQuat))]
          else [])
    ∧ baseRecord lay r b
        = (if valid then [rawByte .baseStation .baseRaw (byteAt r (b + lay.bVal))] else [])

/-- A valid controller record emits exactly 11 observations, 1 POSE, 6 BUTTON and 4 ANALOG; a skipped one 0
(41_frame_decoder.md R147). -/
def Obligations.ControllerRecordEmitsElevenOrNone : Prop :=
  ∀ (cfg : ConfigReg) (lay : LayoutTable) (r : List Byte) (c : Fin 2) (b : Nat),
    let l := controllerRecord cfg lay r c b
    let kinds := l.map (fun o => (entryWord o.encode 0).toNat % 16)
    (versionOk r b = true → l.length = 11 ∧ kinds.count 1 = 1 ∧ kinds.count 2 = 6 ∧ kinds.count 3 = 4)
    ∧ (versionOk r b = false → l = [])

/-- A version mismatch in one record leaves its sibling's observations alone (41_frame_decoder.md R128, R152). -/
def Obligations.VersionMismatchSkipsOnlyItsRecord : Prop :=
  ∀ (cfg : ConfigReg) (lay : LayoutTable) (r : List Byte),
    (versionOk r 1 = false → frameA5 cfg lay r = controllerRecord cfg lay r 1 (64 - lay.lC))
    ∧ (versionOk r (64 - lay.lC) = false → frameA5 cfg lay r = controllerRecord cfg lay r 0 1)
    ∧ (versionOk r 0x15 = false → frameA6 cfg lay r = baseRecord lay r 0x36)
    ∧ (versionOk r 0x36 = false → frameA6 cfg lay r = headsetRecord cfg lay r 0x15)

/-- With an admitted layout table "every read stays inside RB[0..63]" (30_encoding.md R88): bytes beyond a report's 64
never change what its frame emits. -/
def Obligations.FieldReadsStayInsideReport : Prop :=
  ∀ (cfg : ConfigReg) (lay : Layout) (r x : List Byte), r.length = 64 →
    frameA5 cfg lay.table (r ++ x) = frameA5 cfg lay.table r
    ∧ frameA6 cfg lay.table (r ++ x) = frameA6 cfg lay.table r

/-! ### Conversions and entries -/

/-- POS (41_frame_decoder.md R140), by arithmetic on the bytes: high byte first, X and Y in two's complement, Z unsigned
when ZU = 1, each in its range. -/
def Obligations.PositionConversion : Prop :=
  ∀ (zu : Bool) (r : List Byte) (a : Nat),
    let u (k : Nat) : Int := 256 * ((byteAt r (a + k)).toNat : Int) + ((byteAt r (a + k + 1)).toNat : Int)
    let signed (v : Int) : Int := if v < 32768 then v else v - 65536
    let p := posAt zu r a
    p.x = signed (u 0) ∧ p.y = signed (u 2) ∧ p.z = (if zu then u 4 else signed (u 4))
    ∧ -32768 ≤ p.x ∧ p.x ≤ 32767 ∧ -32768 ≤ p.y ∧ p.y ≤ 32767
    ∧ (zu = false → -32768 ≤ p.z ∧ p.z ≤ 32767) ∧ (zu = true → 0 ≤ p.z ∧ p.z ≤ 65535)

/-- QUAT (41_frame_decoder.md R141), by arithmetic on the bytes: (w, i, j, k) becomes (W, X, Y, Z) = (w, i, k, -j), and
-j is formed on the integer, so that j = -32768 gives +32768. -/
def Obligations.QuaternionRelabelling : Prop :=
  ∀ (r : List Byte) (a : Nat),
    let u (k : Nat) : Int := 256 * ((byteAt r (a + k)).toNat : Int) + ((byteAt r (a + k + 1)).toNat : Int)
    let signed (v : Int) : Int := if v < 32768 then v else v - 65536
    let q := quatAt r a
    q.w = signed (u 0) ∧ q.x = signed (u 2) ∧ q.z = -(signed (u 4)) ∧ q.y = signed (u 6)
    ∧ -32768 ≤ q.w ∧ q.w ≤ 32767 ∧ -32768 ≤ q.x ∧ q.x ≤ 32767 ∧ -32768 ≤ q.y ∧ q.y ≤ 32767
    ∧ -32767 ≤ q.z ∧ q.z ≤ 32768 ∧ (u 4 = 32768 → q.z = 32768)

/-- TOUCH (41_frame_decoder.md R143): the observation of the given SRC and channel whose value is 2*(b/255) - 1, negated
when inverted, in [-1, 1] and never 0; its words are num, 255 and the raw byte. (The words of every ANALOG entry, SRC and
channel among them: EntryHeaderFields.) -/
def Obligations.TouchValueIsExact : Prop :=
  ∀ (src : Source) (ch : Channel) (b : Byte) (inv : Bool),
    let num : Int := if inv then 255 - 2 * (b.toNat : Int) else 2 * (b.toNat : Int) - 255
    let e := (touch src ch b inv).encode
    let x : Rat := 2 * ((b.toNat : Rat) / 255) - 1
    touch src ch b inv = .analog src ch num 255 b
    ∧ physicalAnalog e = (if inv then -x else x)
    ∧ -1 ≤ physicalAnalog e ∧ physicalAnalog e ≤ 1 ∧ physicalAnalog e ≠ 0
    ∧ (entryWord e 1).toInt = num ∧ entryWord e 2 = 255#32 ∧ (entryWord e 3).toNat = b.toNat

/-- UNIT and RAWBYTE (41_frame_decoder.md R144, R145): the observations of the given SRC and channel with the values b/255
in [0, 1], and b itself, unsigned; their words are b, the denominator 255 or 1, and the raw byte. (The words of every
ANALOG entry, SRC and channel among them: EntryHeaderFields.) -/
def Obligations.UnitAndRawValuesAreExact : Prop :=
  ∀ (src : Source) (ch : Channel) (b : Byte),
    let e := (unitAnalog src ch b).encode
    let f := (rawByte src ch b).encode
    unitAnalog src ch b = .analog src ch b.toNat 255 b
    ∧ physicalAnalog e = (b.toNat : Rat) / 255 ∧ 0 ≤ physicalAnalog e ∧ physicalAnalog e ≤ 1
    ∧ (entryWord e 1).toNat = b.toNat ∧ entryWord e 2 = 255#32 ∧ (entryWord e 3).toNat = b.toNat
    ∧ rawByte src ch b = .analog src ch b.toNat 1 b
    ∧ physicalAnalog f = (b.toNat : Rat)
    ∧ (entryWord f 1).toNat = b.toNat ∧ entryWord f 2 = 1#32 ∧ (entryWord f 3).toNat = b.toNat

/-- POSE and HOME entries (30_encoding.md R92, R93): words 1 to 3 are the position integers and words 4 to 7 the
quaternion's (0 in a HOME entry), in two's complement; they denote the integers times the unit that PSCALED selects, and
the quaternion in units of 1/16384. -/
def Obligations.PoseAndHomeEntriesDenoteTheirValues : Prop :=
  ∀ (src : Source) (p : Position) (q : Quaternion) (pscaled : Bool),
    (∀ x ∈ [p.x, p.y, p.z, q.w, q.x, q.y, q.z], -2 ^ 31 ≤ x ∧ x < 2 ^ 31) →
      let u : Rat := if pscaled then 1 / 10000 else 1
      let e := (Observation.pose src p pscaled q).encode
      let f := (Observation.home src p pscaled).encode
      (List.range 7).map (fun m => (entryWord e (m + 1)).toInt) = [p.x, p.y, p.z, q.w, q.x, q.y, q.z]
      ∧ (List.range 3).map (fun m => (entryWord f (m + 1)).toInt) = [p.x, p.y, p.z]
      ∧ (∀ m, 4 ≤ m → m < 8 → entryWord f m = 0#32)
      ∧ physicalPosition e = ((p.x : Rat) * u, (p.y : Rat) * u, (p.z : Rat) * u)
      ∧ physicalQuaternion e = ((q.w : Rat) / 16384, (q.x : Rat) / 16384, (q.y : Rat) / 16384, (q.z : Rat) / 16384)
      ∧ physicalPosition f = ((p.x : Rat) * u, (p.y : Rat) * u, (p.z : Rat) * u)

/-- The words of every entry (30_encoding.md R90, R91, R94, R95; those of POSE and HOME past the header:
PoseAndHomeEntriesDenoteTheirValues), by arithmetic: that it has eight; KIND, SRC, INDEX, PSCALED and the reserved bits
of the header; a BUTTON's state word and its words 2 to 7, which are 0; an ANALOG's num and den, where they fit in 32
bits, its raw byte and its words 4 to 7, which are 0. That INDEX of a BUTTON is its index modulo 256 is the model's
choice (log entry 11); R90 gives the indices 0..11. -/
def Obligations.EntryHeaderFields : Prop :=
  ∀ o : Observation,
    let h := (entryWord o.encode 0).toNat
    let srcCode : Source → Nat := fun src =>
      match src with | .controller0 => 0 | .controller1 => 1 | .headset => 2 | .baseStation => 3
    let channelCode : Channel → Nat := fun ch =>
      match ch with | .touchX => 0 | .touchY => 1 | .battery => 2 | .trigger => 3 | .baseRaw => 4
    o.encode.length = 8 ∧ h / 2 ^ 17 = 0
    ∧ match o with
      | .pose src _ pscaled _ =>
        h % 16 = 1 ∧ h / 16 % 16 = srcCode src ∧ h / 256 % 256 = 0 ∧ h / 2 ^ 16 % 2 = (if pscaled then 1 else 0)
      | .home src _ pscaled =>
        h % 16 = 4 ∧ h / 16 % 16 = srcCode src ∧ h / 256 % 256 = 0 ∧ h / 2 ^ 16 % 2 = (if pscaled then 1 else 0)
      | .button src index pressed =>
        h % 16 = 2 ∧ h / 16 % 16 = srcCode src ∧ h / 256 % 256 = index % 256 ∧ h / 2 ^ 16 % 2 = 0
          ∧ entryWord o.encode 1 = (if pressed then 1#32 else 0#32)
          ∧ (∀ m, 2 ≤ m → m < 8 → entryWord o.encode m = 0#32)
      | .analog src ch num den raw =>
        h % 16 = 3 ∧ h / 16 % 16 = srcCode src ∧ h / 256 % 256 = channelCode ch ∧ h / 2 ^ 16 % 2 = 0
          ∧ (-2 ^ 31 ≤ num → num < 2 ^ 31 → (entryWord o.encode 1).toInt = num)
          ∧ (den < 2 ^ 32 → (entryWord o.encode 2).toNat = den)
          ∧ (entryWord o.encode 3).toNat = raw.toNat
          ∧ (∀ m, 4 ≤ m → m < 8 → entryWord o.encode m = 0#32)

/-! ### The host port -/

/-- Bus errors (20_memory.md R52, R53, R54; 60_exceptions.md R181): a wrong width, a misaligned address, a reserved
address or a write to OBS gives an error response and changes nothing else; no other access gives one. `inputs` and
`response` are the model's own (log entries 4, 5). -/
def Obligations.BusErrorExactlyOnBadAccess : Prop :=
  ∀ (s : State) (addr : BitVec 12) (width : BusWidth) (v : Word) (rest : List Input),
    let a := addr.toNat
    let bad := width ≠ .w32 ∨ a % 4 ≠ 0 ∨ (0x050 ≤ a ∧ a < 0x080) ∨ (0x0BC ≤ a ∧ a < 0x100) ∨ 0x3C0 ≤ a
    let toObs := 0x100 ≤ a ∧ a < 0x3C0
    (s.inputs = .access (.read addr width) :: rest →
      (bad → step s = .next { s with inputs := rest, response := .busError addr })
      ∧ (¬ bad → ∀ t x, step s = .next t → t.response ≠ .busError x))
    ∧ (s.inputs = .access (.write addr width v) :: rest →
      (bad ∨ toObs → step s = .next { s with inputs := rest, response := .busError addr })
      ∧ (¬ bad → ¬ toObs → ∀ t x, step s = .next t → t.response ≠ .busError x))

/-- The byte lanes of RB (20_memory.md R56): an idle write of a word stores its four bytes lowest first and nothing
else, and an idle read of a written word returns `{RB[4k+3], RB[4k+2], RB[4k+1], RB[4k]}`. `inputs` and `response` are
the model's own (log entries 4, 5). -/
def Obligations.ReportBufferLanes : Prop :=
  ∀ (s : State) (k : Nat) (v : Word) (rest : List Input), k < 16 → s.status.busy = false →
    (s.inputs = .access (.write (BitVec.ofNat 12 (4 * k)) .w32 v) :: rest →
      ∃ t, step s = .next t
        ∧ (∀ j, j < 4 → t.rb? (4 * k + j) = some (BitVec.ofNat 8 (v.toNat / 256 ^ j)))
        ∧ (∀ a, a < 4 * k ∨ 4 * k + 4 ≤ a → t.mem.read? a = s.mem.read? a)
        ∧ t = { s with mem := t.mem, inputs := rest, response := .written })
    ∧ (∀ b0 b1 b2 b3, s.inputs = .access (.read (BitVec.ofNat 12 (4 * k)) .w32) :: rest →
        s.rb? (4 * k) = some b0 → s.rb? (4 * k + 1) = some b1 → s.rb? (4 * k + 2) = some b2 →
        s.rb? (4 * k + 3) = some b3 →
          step s = .next { s with inputs := rest, response := .data (b3 ++ b2 ++ b1 ++ b0) })

/-- WB access (20_memory.md R57): an idle write stores the word and nothing else; an idle read returns it. `inputs` and
`response` are the model's own (log entries 4, 5). -/
def Obligations.WordBufferAccess : Prop :=
  ∀ (s : State) (i : Nat) (v : Word) (rest : List Input), i < 15 → s.status.busy = false →
    (s.inputs = .access (.write (BitVec.ofNat 12 (0x080 + 4 * i)) .w32 v) :: rest →
      ∃ t, step s = .next t ∧ t.wb i = .ok v
        ∧ (∀ a, a < 0x080 + 4 * i ∨ 0x080 + 4 * i + 4 ≤ a → t.mem.read? a = s.mem.read? a)
        ∧ t = { s with mem := t.mem, inputs := rest, response := .written })
    ∧ (s.inputs = .access (.read (BitVec.ofNat 12 (0x080 + 4 * i)) .w32) :: rest → s.wb i = .ok v →
        step s = .next { s with inputs := rest, response := .data v })

/-- OBS access (20_memory.md R60): an idle read returns the word of the entry; after a DECODE the entries from OBS_COUNT
on read as 0. `inputs` and `response` are the model's own (log entries 4, 5). (That `exec` performs the command while
BUSY = 1: log entry 7.) -/
def Obligations.ObservationBufferReads : Prop :=
  (∀ (s : State) (j m : Nat) (w : Word) (rest : List Input), j < 22 → m < 8 → s.status.busy = false →
    s.inputs = .access (.read (BitVec.ofNat 12 (0x100 + 32 * j + 4 * m)) .w32) :: rest → s.obs j m = .ok w →
      step s = .next { s with inputs := rest, response := .data w })
  ∧ (∀ (s t : State) (j m : Nat), s.status.busy = true → exec .decode s = .next t →
      t.status.obsCount.toNat ≤ j → j < 22 → m < 8 → t.obs j m = .ok 0#32)

/-- CONFIG (10_state.md R28): an idle write stores v & 0x800003FF, a write while busy is dropped, and a read returns
CONFIG at any time. `inputs` and `response` are the model's own (log entries 4, 5). -/
def Obligations.ConfigStoresMaskedWord : Prop :=
  ∀ (s : State) (v : Word) (rest : List Input),
    (s.inputs = .access (.write 0x048#12 .w32 v) :: rest → s.status.busy = false →
      ∃ t, step s = .next t ∧ t.config.word = v &&& 0x800003FF#32
        ∧ t = { s with config := t.config, inputs := rest, response := .written })
    ∧ (s.inputs = .access (.write 0x048#12 .w32 v) :: rest → s.status.busy = true →
        step s = .next { s with inputs := rest, response := .written, status := { s.status with ovr := true } })
    ∧ (s.inputs = .access (.read 0x048#12 .w32) :: rest →
        step s = .next { s with inputs := rest, response := .data s.config.word })

/-- STATUS access (10_state.md R30), busy or not: writing 1 clears DONE and OVR, all other bits are ignored, and a read
returns STATUS exactly. `inputs` and `response` are the model's own (log entries 4, 5). -/
def Obligations.StatusWriteOneToClear : Prop :=
  ∀ (s : State) (v : Word) (rest : List Input),
    (s.inputs = .access (.write 0x044#12 .w32 v) :: rest →
      ∃ t, step s = .next t
        ∧ t = { s with inputs := rest, response := .written,
                       status := { s.status with done := t.status.done, ovr := t.status.ovr } }
        ∧ t.status.done = (if v.toNat / 2 % 2 = 1 then false else s.status.done)
        ∧ t.status.ovr = (if v.toNat / 4 % 2 = 1 then false else s.status.ovr))
    ∧ (s.inputs = .access (.read 0x044#12 .w32) :: rest →
        step s = .next { s with inputs := rest, response := .data s.status.word })

/-- CTRL access (10_state.md R31), busy or not: a write stores v[0] in IE and nothing else; a read returns IE in bit 0
and zeros. `inputs` and `response` are the model's own (log entries 4, 5). -/
def Obligations.ControlStoresInterruptEnable : Prop :=
  ∀ (s : State) (v : Word) (rest : List Input),
    (s.inputs = .access (.write 0x04C#12 .w32 v) :: rest →
      step s = .next { s with inputs := rest, response := .written, ctrl := { ie := decide (v.toNat % 2 = 1) } })
    ∧ (s.inputs = .access (.read 0x04C#12 .w32) :: rest →
        step s = .next { s with inputs := rest, response := .data (if s.ctrl.ie then 1#32 else 0#32) })

/-- The words of STATUS, CONFIG and CTRL, by arithmetic on their fields (10_state.md R27, R29, R31). -/
def Obligations.RegisterWordLayouts : Prop :=
  (∀ st : Status, st.word.toNat
      = st.busy.toNat + 2 * st.done.toNat + 4 * st.ovr.toNat
        + 16 * (match st.err with | .none => 0 | .illegalCmd => 1 | .nTooSmall => 2 | .notConfigured => 3)
        + 256 * st.obsCount.toNat)
  ∧ (∀ c : ConfigReg, c.word.toNat
      = c.bo.toNat + 2 * c.woff.toNat + 16 * c.pscale.toNat + 32 * c.hscale.toNat + 64 * c.zu.toNat
        + 128 * c.txinv.toNat + 256 * c.tyinv.toNat + 512 * c.lsel.toNat + 2 ^ 31 * c.valid.toNat)
  ∧ (∀ c : Ctrl, c.word.toNat = c.ie.toNat)

/-- A read of CMD returns 0 with no error and no effect, busy or not (20_memory.md R55). `inputs` and `response` are the
model's own (log entries 4, 5). -/
def Obligations.CommandRegisterReadsZero : Prop :=
  ∀ (s : State) (rest : List Input), s.inputs = .access (.read 0x040#12 .w32) :: rest →
    step s = .next { s with inputs := rest, response := .data 0#32 }

/-- Writes while busy (20_memory.md R58): a write to RB, WB, CONFIG or CMD is dropped, sets OVR and completes with no
error; writes to STATUS and CTRL take effect. `inputs` and `response` are the model's own (log entries 4, 5). -/
def Obligations.BusyWriteIsDroppedWithOverrun : Prop :=
  ∀ (s : State) (addr : BitVec 12) (v : Word) (rest : List Input),
    let a := addr.toNat
    s.status.busy = true → s.inputs = .access (.write addr .w32 v) :: rest → a % 4 = 0 →
      ((a < 0x044 ∨ a = 0x048 ∨ (0x080 ≤ a ∧ a < 0x0BC)) →
        step s = .next { s with inputs := rest, response := .written, status := { s.status with ovr := true } })
      ∧ (a = 0x044 → ∃ t, step s = .next t ∧ t.status.busy = true
          ∧ (v.getLsbD 1 = true → t.status.done = false) ∧ (v.getLsbD 2 = true → t.status.ovr = false))
      ∧ (a = 0x04C → ∃ t, step s = .next t ∧ t.ctrl.ie = v.getLsbD 0)

/-- Reads while busy (20_memory.md R59): RB, WB and OBS return an unspecified word, the model's next draw (log
entry 6), with no effect on the machine; STATUS, CONFIG and CTRL return their exact values. `inputs` and `response` are
the model's own (log entries 4, 5). -/
def Obligations.BusyReadOfBufferIsUnspecified : Prop :=
  ∀ (s : State) (addr : BitVec 12) (rest : List Input),
    let a := addr.toNat
    s.status.busy = true → s.inputs = .access (.read addr .w32) :: rest → a % 4 = 0 →
      ((a < 0x040 ∨ (0x080 ≤ a ∧ a < 0x0BC) ∨ (0x100 ≤ a ∧ a < 0x3C0)) →
        step s = .next { s with inputs := rest, response := .data (Config.busyRead s.draws), draws := s.draws + 1 })
      ∧ (a = 0x044 → step s = .next { s with inputs := rest, response := .data s.status.word })
      ∧ (a = 0x048 → step s = .next { s with inputs := rest, response := .data s.config.word })
      ∧ (a = 0x04C → step s = .next { s with inputs := rest, response := .data s.ctrl.word })

/-- "No read has a side effect" (20_memory.md R63): a host read changes nothing but the port's answer (and the model's
draw counter). `inputs` and `response` are the model's own (log entries 4, 5). -/
def Obligations.HostReadsHaveNoSideEffect : Prop :=
  ∀ (s t : State) (addr : BitVec 12) (width : BusWidth) (rest : List Input),
    s.inputs = .access (.read addr width) :: rest → step s = .next t →
      t = { s with inputs := rest, response := t.response, draws := t.draws }

/-- While a command is in progress no host access touches it (20_memory.md R58; 42_commands.md R167): the latched
command, BUSY, the buffers and CONFIG stay, and the access always completes. `inputs` is the model's own (log entry
4). -/
def Obligations.HostCannotDisturbBusyCommand : Prop :=
  ∀ (s : State) (x : HostAccess) (rest : List Input),
    s.status.busy = true → s.inputs = .access x :: rest →
      ∃ t, step s = .next t ∧ t.inputs = rest ∧ t.lc = s.lc ∧ t.status.busy = true ∧ t.mem = s.mem
        ∧ t.config = s.config ∧ t.layout0 = s.layout0 ∧ t.layout1 = s.layout1
        ∧ t.status.obsCount = s.status.obsCount ∧ t.status.err = s.status.err

/-! ### The engine -/

/-- The engine step (42_commands.md R163; 60_exceptions.md R194): with BUSY = 1 a turn that answers a next state ends
the command, sets DONE, and leaves OVR, ERR, CONFIG and CTRL; with BUSY = 0 it does nothing. `inputs` is the model's own
(log entry 4). -/
def Obligations.EngineTurnEndsCommandOrIdles : Prop :=
  ∀ (s t : State) (rest : List Input),
    (s.inputs = .engine :: rest ∨ (s.inputs = [] ∧ rest = [])) →
      (s.status.busy = false → step s = .next { s with inputs := rest })
      ∧ (s.status.busy = true → step s = .next t →
          t.status.busy = false ∧ t.status.done = true ∧ t.lc = none ∧ t.status.ovr = s.status.ovr
          ∧ t.status.err = s.status.err ∧ t.config = s.config ∧ t.ctrl = s.ctrl ∧ t.inputs = rest)

/-- Only a DECODE performed by the engine writes OBS (10_state.md R26), a reset aside. `inputs` is the model's own (log
entry 4). -/
def Obligations.OnlyDecodeWritesObservations : Prop :=
  ∀ (s t : State) (a : Nat), step s = .next t → 0x100 ≤ a → a < 0x3C0 → t.mem.read? a ≠ s.mem.read? a →
    (∃ rest, s.inputs = .reset :: rest)
    ∨ (s.status.busy = true ∧ s.lc = some 0x00000002#32 ∧ (s.inputs = [] ∨ ∃ rest, s.inputs = .engine :: rest))

/-- Only an idle host write to CONFIG changes CONFIG (10_state.md R20, R28), a reset aside; the layout tables never
change (R36). `inputs` is the model's own (log entry 4). -/
def Obligations.OnlyHostWritesConfig : Prop :=
  ∀ s t : State, step s = .next t →
    t.layout0 = s.layout0 ∧ t.layout1 = s.layout1
    ∧ (t.config ≠ s.config →
        (∃ rest, s.inputs = .reset :: rest)
        ∨ (s.status.busy = false ∧ ∃ v rest, s.inputs = .access (.write 0x048#12 .w32 v) :: rest))

/-- The irq line (10_state.md R34): DONE & IE at every moment; high after a completion or a rejection with IE = 1; low
after the host clears DONE, clears IE, writes an accepted command or resets, and at reset. A completion is the engine's
turn while busy, taken as a pending event or because none is pending. `inputs` is the model's own (log entry 4). -/
def Obligations.IrqFollowsDoneAndEnable : Prop :=
  (∀ s : State, s.irq = true ↔ s.status.done = true ∧ s.ctrl.ie = true)
  ∧ State.reset.irq = false
  ∧ (∀ (s t : State) (rest : List Input), step s = .next t →
      ((s.inputs = [] ∨ s.inputs = .engine :: rest) → s.status.busy = true → s.ctrl.ie = true → t.irq = true)
      ∧ (∀ cmd, s.inputs = .access (.write 0x040#12 .w32 cmd) :: rest → s.status.busy = false →
          (commandCheck s.config (decodeCmd cmd) ≠ none → s.ctrl.ie = true → t.irq = true)
          ∧ (commandCheck s.config (decodeCmd cmd) = none → t.irq = false))
      ∧ (∀ v, s.inputs = .access (.write 0x044#12 .w32 v) :: rest → v.getLsbD 1 = true → t.irq = false)
      ∧ (∀ v, s.inputs = .access (.write 0x04C#12 .w32 v) :: rest → v.getLsbD 0 = false → t.irq = false)
      ∧ (s.inputs = .reset :: rest → t.irq = false))

/-! ### Unwritten cells -/

/-- A command or a host read that uses an unwritten cell faults and names it (10_state.md R37; 70_reset_and_hazards.md
R204; 93_implementation_defined.md I2; the fault is the model's, log entry 1): DECODE on a report with an unwritten byte,
DECRYPT with an unwritten byte in WB[0 .. n-1], and an idle host read of a word of RB, WB or OBS with an unwritten byte.
`inputs` is the model's own (log entry 4). (That `exec` performs the command while BUSY = 1: log entry 7.) -/
def Obligations.UnwrittenCellFaults : Prop :=
  (∀ (s : State) (i : Nat), s.status.busy = true → 1 ≤ s.config.woff.toNat → s.config.woff.toNat ≤ 4 → i < 64 →
    s.rb? i = none →
    ∃ x, exec .decode s = .fault (.unwritten x) ∧ x < 64 ∧ s.mem.read? x = none)
  ∧ (∀ (s : State) (n : BitVec 4) (br : BitVec 8) (a : Nat), s.status.busy = true → 2 ≤ n.toNat →
      0x80 ≤ a → a < 0x80 + 4 * n.toNat → s.mem.read? a = none →
        ∃ x, exec (.decrypt n br) s = .fault (.unwritten x) ∧ 0x80 ≤ x ∧ x < 0x80 + 4 * n.toNat
          ∧ s.mem.read? x = none)
  ∧ (∀ (s : State) (addr : BitVec 12) (rest : List Input) (a : Nat), s.status.busy = false →
      s.inputs = .access (.read addr .w32) :: rest → addr.toNat % 4 = 0 →
      (addr.toNat < 0x40 ∨ (0x80 ≤ addr.toNat ∧ addr.toNat < 0xBC) ∨ (0x100 ≤ addr.toNat ∧ addr.toNat < 0x3C0)) →
      addr.toNat ≤ a → a < addr.toNat + 4 → s.mem.read? a = none →
        ∃ x, step s = .fault (.unwritten x) ∧ addr.toNat ≤ x ∧ x < addr.toNat + 4 ∧ s.mem.read? x = none)

/-! ### Reset -/

/-- The values the spec gives for reset (10_state.md R37): CONFIG, STATUS and CTRL zero, no command latched, irq low,
every cell of RB, WB and OBS unwritten, KEY the constant. (Of the model's own fields, log entries 3 to 6, it says
nothing.) -/
def Obligations.ResetValues : Prop :=
  State.reset.config.word = 0#32 ∧ State.reset.status.word = 0#32 ∧ State.reset.ctrl.word = 0#32
  ∧ State.reset.lc = none ∧ State.reset.irq = false
  ∧ (∀ a, State.reset.mem.read? a = none)
  ∧ State.reset.layout0 = Config.layout0 ∧ State.reset.layout1 = Config.layout1
  ∧ (List.range 4).map key = [0x875BCC51#32, 0xA7637A66#32, 0x50960967#32, 0xF8536C51#32]

/-- The reset input (70_reset_and_hazards.md R200, R201), in any state: the registers at their reset values, a command
in progress abandoned with DONE not set, RB, WB and OBS unwritten; the layout tables stay. `inputs` is the model's own
(log entry 4). -/
def Obligations.ResetInputAbandonsCommand : Prop :=
  ∀ (s : State) (rest : List Input), s.inputs = .reset :: rest →
    ∃ t, step s = .next t ∧ t.config = ConfigReg.reset ∧ t.status = Status.reset ∧ t.ctrl = Ctrl.reset
      ∧ t.lc = none ∧ t.irq = false ∧ (∀ a, t.mem.read? a = none)
      ∧ t.layout0 = s.layout0 ∧ t.layout1 = s.layout1 ∧ t.inputs = rest

/-- After reset (70_reset_and_hazards.md R202) the block is idle and unconfigured: a DECRYPT with n of at least 2 is
accepted at once, a DECODE is refused with NOT_CONFIGURED, and IE = 0. `inputs` is the model's own (log entry 4). -/
def Obligations.AfterResetDecryptAcceptedDecodeRefused : Prop :=
  ∀ (s : State) (rest : List Input) (n : BitVec 4) (br : BitVec 8),
    s.status = Status.reset → s.config = ConfigReg.reset → s.ctrl = Ctrl.reset →
      s.status.busy = false ∧ s.config.valid = false ∧ s.ctrl.ie = false
      ∧ (2 ≤ n.toNat → s.inputs = .access (.write 0x040#12 .w32 (decryptWord n br)) :: rest →
          ∃ t, step s = .next t ∧ t.lc = some (decryptWord n br) ∧ t.status.word = 0x00000001#32)
      ∧ (s.inputs = .access (.write 0x040#12 .w32 0x00000002#32) :: rest →
          ∃ t, step s = .next t ∧ t.lc = s.lc ∧ t.status.word = 0x00000032#32)

/-! ### The invariant -/

/-- The state after reset is lawful. -/
def Obligations.ResetIsLawful : Prop := State.reset.Lawful

/-- Every step of a lawful state leaves a lawful state: the buffers canonical, inside their regions and written by whole
words; a checked command latched exactly while BUSY = 1, with DONE = 0 and ERR = 0; OBS_COUNT at most 22. -/
def Obligations.StepKeepsStateLawful : Prop :=
  ∀ s t : State, s.Lawful → step s = .next t → t.Lawful

/-- A lawful state never stops but on a use of a cell nothing has written (10_state.md R37; a fault by the model's choice,
log entry 1): no refusal, no other fault. -/
def Obligations.LawfulStepStopsOnlyOnUnwrittenCell : Prop :=
  ∀ s : State, s.Lawful →
    (∀ q, step s ≠ .refused q)
    ∧ (∀ f, step s = .fault f → ∃ x, f = .unwritten x ∧ s.mem.read? x = none)

/-- An accepted command completes (42_commands.md R163: "a step that stays enabled is eventually taken"): from a lawful
busy state in which the cells that the latched command reads are written (RB for a DECODE, 70_reset_and_hazards.md R204;
WB[0 .. n-1] for a DECRYPT, R205), with no reset among the pending events, BUSY falls within as many steps as there are
pending events and one more, whatever the host does meanwhile. `inputs`, and the engine's turn when none is pending, are
the model's own (log entry 4); that an unwritten cell would stop the command is log entry 1. -/
def Obligations.AcceptedCommandEventuallyCompletes : Prop :=
  ∀ s : State, s.Lawful → s.status.busy = true → (∀ x ∈ s.inputs, x ≠ .reset) →
    (∀ cmd, s.lc = some cmd →
      (decodeCmd cmd = some .decode → ∀ a, a < 0x40 → (s.mem.read? a).isSome)
      ∧ (∀ n br, decodeCmd cmd = some (.decrypt n br) →
          ∀ a, 0x80 ≤ a → a < 0x80 + 4 * n.toNat → (s.mem.read? a).isSome)) →
      ∃ (k : Nat) (t : State), k ≤ s.inputs.length + 1 ∧ Sys2Proof.core.run k s = .next t
        ∧ t.status.busy = false ∧ t.status.done = true

/-! ### The whole cipher -/

/-- The whole function (40_cipher.md R102, R103, R107): decryption is br + floor(52 / n) rounds from the words and the
sum (rounds * DELTA) mod 2^32, for every n, br and words. (What one round does: RoundDataFlow.) -/
def Obligations.DecryptionIteratesItsRounds : Prop :=
  ∀ (n br : Nat) (v : List Word),
    let rounds := br + 52 / n
    ∃ c₀ : CipherState, c₀.words = v ∧ c₀.sum.toNat = rounds * 0x9E3779B9 % 2 ^ 32
      ∧ xxteaDecrypt n br v = ((cipherRound n)^[rounds] c₀).words

/-! ### Layout tables -/

/-- Which layout tables are admitted (30_encoding.md R88, clauses 1 to 4): exactly those within its bounds. (That every
read then stays inside RB: FieldReadsStayInsideReport.) -/
def Obligations.LayoutAdmittedExactlyWithinBounds : Prop :=
  ∀ t : LayoutTable, t.admitted = true ↔
    (21 ≤ t.lC ∧ t.lC ≤ 63)
    ∧ (2 ≤ t.cPos ∧ t.cPos + 6 ≤ t.lC) ∧ (2 ≤ t.cQuat ∧ t.cQuat + 8 ≤ t.lC)
    ∧ (∀ f ∈ [t.cBtn, t.cTx, t.cTy, t.cBat, t.cTrig], 2 ≤ f ∧ f + 1 ≤ t.lC)
    ∧ (2 ≤ t.hHome ∧ 0x15 + t.hHome + 6 ≤ 64) ∧ (2 ≤ t.hPos ∧ 0x15 + t.hPos + 6 ≤ 64)
    ∧ (2 ≤ t.hQuat ∧ 0x15 + t.hQuat + 8 ≤ 64)
    ∧ (2 ≤ t.bVal ∧ t.bVal ≤ 9)
end

