-- ==== Sys2Proof/Laws/State.lean ====
section
/-! SUPPORT. One lemma per field per update of State, each true by rfl, so that no later proof unfolds an update. -/

namespace Sys2Proof.Machine

/-! ### setMem -/

@[simp] theorem State.setMem_mem (s : State) (m : Memory) : (s.setMem m).mem = m := rfl
@[simp] theorem State.setMem_config (s : State) (m : Memory) : (s.setMem m).config = s.config := rfl
@[simp] theorem State.setMem_status (s : State) (m : Memory) : (s.setMem m).status = s.status := rfl
@[simp] theorem State.setMem_ctrl (s : State) (m : Memory) : (s.setMem m).ctrl = s.ctrl := rfl
@[simp] theorem State.setMem_lc (s : State) (m : Memory) : (s.setMem m).lc = s.lc := rfl
@[simp] theorem State.setMem_layout0 (s : State) (m : Memory) : (s.setMem m).layout0 = s.layout0 := rfl
@[simp] theorem State.setMem_layout1 (s : State) (m : Memory) : (s.setMem m).layout1 = s.layout1 := rfl
@[simp] theorem State.setMem_obsList (s : State) (m : Memory) : (s.setMem m).obsList = s.obsList := rfl
@[simp] theorem State.setMem_inputs (s : State) (m : Memory) : (s.setMem m).inputs = s.inputs := rfl
@[simp] theorem State.setMem_response (s : State) (m : Memory) : (s.setMem m).response = s.response := rfl
@[simp] theorem State.setMem_draws (s : State) (m : Memory) : (s.setMem m).draws = s.draws := rfl

/-! ### setConfig -/

@[simp] theorem State.setConfig_mem (s : State) (c : ConfigReg) : (s.setConfig c).mem = s.mem := rfl
@[simp] theorem State.setConfig_config (s : State) (c : ConfigReg) : (s.setConfig c).config = c := rfl
@[simp] theorem State.setConfig_status (s : State) (c : ConfigReg) : (s.setConfig c).status = s.status := rfl
@[simp] theorem State.setConfig_ctrl (s : State) (c : ConfigReg) : (s.setConfig c).ctrl = s.ctrl := rfl
@[simp] theorem State.setConfig_lc (s : State) (c : ConfigReg) : (s.setConfig c).lc = s.lc := rfl
@[simp] theorem State.setConfig_layout0 (s : State) (c : ConfigReg) : (s.setConfig c).layout0 = s.layout0 := rfl
@[simp] theorem State.setConfig_layout1 (s : State) (c : ConfigReg) : (s.setConfig c).layout1 = s.layout1 := rfl
@[simp] theorem State.setConfig_obsList (s : State) (c : ConfigReg) : (s.setConfig c).obsList = s.obsList := rfl
@[simp] theorem State.setConfig_inputs (s : State) (c : ConfigReg) : (s.setConfig c).inputs = s.inputs := rfl
@[simp] theorem State.setConfig_response (s : State) (c : ConfigReg) : (s.setConfig c).response = s.response := rfl
@[simp] theorem State.setConfig_draws (s : State) (c : ConfigReg) : (s.setConfig c).draws = s.draws := rfl

/-! ### setCtrl -/

@[simp] theorem State.setCtrl_mem (s : State) (c : Ctrl) : (s.setCtrl c).mem = s.mem := rfl
@[simp] theorem State.setCtrl_config (s : State) (c : Ctrl) : (s.setCtrl c).config = s.config := rfl
@[simp] theorem State.setCtrl_status (s : State) (c : Ctrl) : (s.setCtrl c).status = s.status := rfl
@[simp] theorem State.setCtrl_ctrl (s : State) (c : Ctrl) : (s.setCtrl c).ctrl = c := rfl
@[simp] theorem State.setCtrl_lc (s : State) (c : Ctrl) : (s.setCtrl c).lc = s.lc := rfl
@[simp] theorem State.setCtrl_layout0 (s : State) (c : Ctrl) : (s.setCtrl c).layout0 = s.layout0 := rfl
@[simp] theorem State.setCtrl_layout1 (s : State) (c : Ctrl) : (s.setCtrl c).layout1 = s.layout1 := rfl
@[simp] theorem State.setCtrl_obsList (s : State) (c : Ctrl) : (s.setCtrl c).obsList = s.obsList := rfl
@[simp] theorem State.setCtrl_inputs (s : State) (c : Ctrl) : (s.setCtrl c).inputs = s.inputs := rfl
@[simp] theorem State.setCtrl_response (s : State) (c : Ctrl) : (s.setCtrl c).response = s.response := rfl
@[simp] theorem State.setCtrl_draws (s : State) (c : Ctrl) : (s.setCtrl c).draws = s.draws := rfl

/-! ### setObsList -/

@[simp] theorem State.setObsList_mem (s : State) (l : List Observation) : (s.setObsList l).mem = s.mem := rfl
@[simp] theorem State.setObsList_config (s : State) (l : List Observation) : (s.setObsList l).config = s.config := rfl
@[simp] theorem State.setObsList_status (s : State) (l : List Observation) : (s.setObsList l).status = s.status := rfl
@[simp] theorem State.setObsList_ctrl (s : State) (l : List Observation) : (s.setObsList l).ctrl = s.ctrl := rfl
@[simp] theorem State.setObsList_lc (s : State) (l : List Observation) : (s.setObsList l).lc = s.lc := rfl
@[simp] theorem State.setObsList_layout0 (s : State) (l : List Observation) :
    (s.setObsList l).layout0 = s.layout0 := rfl
@[simp] theorem State.setObsList_layout1 (s : State) (l : List Observation) :
    (s.setObsList l).layout1 = s.layout1 := rfl
@[simp] theorem State.setObsList_obsList (s : State) (l : List Observation) : (s.setObsList l).obsList = l := rfl
@[simp] theorem State.setObsList_inputs (s : State) (l : List Observation) : (s.setObsList l).inputs = s.inputs := rfl
@[simp] theorem State.setObsList_response (s : State) (l : List Observation) :
    (s.setObsList l).response = s.response := rfl
@[simp] theorem State.setObsList_draws (s : State) (l : List Observation) : (s.setObsList l).draws = s.draws := rfl

/-! ### setInputs -/

@[simp] theorem State.setInputs_mem (s : State) (l : List Input) : (s.setInputs l).mem = s.mem := rfl
@[simp] theorem State.setInputs_config (s : State) (l : List Input) : (s.setInputs l).config = s.config := rfl
@[simp] theorem State.setInputs_status (s : State) (l : List Input) : (s.setInputs l).status = s.status := rfl
@[simp] theorem State.setInputs_ctrl (s : State) (l : List Input) : (s.setInputs l).ctrl = s.ctrl := rfl
@[simp] theorem State.setInputs_lc (s : State) (l : List Input) : (s.setInputs l).lc = s.lc := rfl
@[simp] theorem State.setInputs_layout0 (s : State) (l : List Input) : (s.setInputs l).layout0 = s.layout0 := rfl
@[simp] theorem State.setInputs_layout1 (s : State) (l : List Input) : (s.setInputs l).layout1 = s.layout1 := rfl
@[simp] theorem State.setInputs_obsList (s : State) (l : List Input) : (s.setInputs l).obsList = s.obsList := rfl
@[simp] theorem State.setInputs_inputs (s : State) (l : List Input) : (s.setInputs l).inputs = l := rfl
@[simp] theorem State.setInputs_response (s : State) (l : List Input) : (s.setInputs l).response = s.response := rfl
@[simp] theorem State.setInputs_draws (s : State) (l : List Input) : (s.setInputs l).draws = s.draws := rfl

/-! ### setResponse -/

@[simp] theorem State.setResponse_mem (s : State) (r : Response) : (s.setResponse r).mem = s.mem := rfl
@[simp] theorem State.setResponse_config (s : State) (r : Response) : (s.setResponse r).config = s.config := rfl
@[simp] theorem State.setResponse_status (s : State) (r : Response) : (s.setResponse r).status = s.status := rfl
@[simp] theorem State.setResponse_ctrl (s : State) (r : Response) : (s.setResponse r).ctrl = s.ctrl := rfl
@[simp] theorem State.setResponse_lc (s : State) (r : Response) : (s.setResponse r).lc = s.lc := rfl
@[simp] theorem State.setResponse_layout0 (s : State) (r : Response) : (s.setResponse r).layout0 = s.layout0 := rfl
@[simp] theorem State.setResponse_layout1 (s : State) (r : Response) : (s.setResponse r).layout1 = s.layout1 := rfl
@[simp] theorem State.setResponse_obsList (s : State) (r : Response) : (s.setResponse r).obsList = s.obsList := rfl
@[simp] theorem State.setResponse_inputs (s : State) (r : Response) : (s.setResponse r).inputs = s.inputs := rfl
@[simp] theorem State.setResponse_response (s : State) (r : Response) : (s.setResponse r).response = r := rfl
@[simp] theorem State.setResponse_draws (s : State) (r : Response) : (s.setResponse r).draws = s.draws := rfl

/-! ### setObsCount -/

@[simp] theorem State.setObsCount_mem (s : State) (n : Nat) : (s.setObsCount n).mem = s.mem := rfl
@[simp] theorem State.setObsCount_config (s : State) (n : Nat) : (s.setObsCount n).config = s.config := rfl
@[simp] theorem State.setObsCount_status (s : State) (n : Nat) :
    (s.setObsCount n).status = { s.status with obsCount := BitVec.ofNat 5 n } := rfl
@[simp] theorem State.setObsCount_ctrl (s : State) (n : Nat) : (s.setObsCount n).ctrl = s.ctrl := rfl
@[simp] theorem State.setObsCount_lc (s : State) (n : Nat) : (s.setObsCount n).lc = s.lc := rfl
@[simp] theorem State.setObsCount_layout0 (s : State) (n : Nat) : (s.setObsCount n).layout0 = s.layout0 := rfl
@[simp] theorem State.setObsCount_layout1 (s : State) (n : Nat) : (s.setObsCount n).layout1 = s.layout1 := rfl
@[simp] theorem State.setObsCount_obsList (s : State) (n : Nat) : (s.setObsCount n).obsList = s.obsList := rfl
@[simp] theorem State.setObsCount_inputs (s : State) (n : Nat) : (s.setObsCount n).inputs = s.inputs := rfl
@[simp] theorem State.setObsCount_response (s : State) (n : Nat) : (s.setObsCount n).response = s.response := rfl
@[simp] theorem State.setObsCount_draws (s : State) (n : Nat) : (s.setObsCount n).draws = s.draws := rfl

/-! ### emit -/

@[simp] theorem State.emit_mem (s : State) (l : List Observation) : (s.emit l).mem = s.mem := rfl
@[simp] theorem State.emit_config (s : State) (l : List Observation) : (s.emit l).config = s.config := rfl
@[simp] theorem State.emit_status (s : State) (l : List Observation) : (s.emit l).status = s.status := rfl
@[simp] theorem State.emit_ctrl (s : State) (l : List Observation) : (s.emit l).ctrl = s.ctrl := rfl
@[simp] theorem State.emit_lc (s : State) (l : List Observation) : (s.emit l).lc = s.lc := rfl
@[simp] theorem State.emit_layout0 (s : State) (l : List Observation) : (s.emit l).layout0 = s.layout0 := rfl
@[simp] theorem State.emit_layout1 (s : State) (l : List Observation) : (s.emit l).layout1 = s.layout1 := rfl
@[simp] theorem State.emit_obsList (s : State) (l : List Observation) : (s.emit l).obsList = s.obsList ++ l := rfl
@[simp] theorem State.emit_inputs (s : State) (l : List Observation) : (s.emit l).inputs = s.inputs := rfl
@[simp] theorem State.emit_response (s : State) (l : List Observation) : (s.emit l).response = s.response := rfl
@[simp] theorem State.emit_draws (s : State) (l : List Observation) : (s.emit l).draws = s.draws := rfl

/-! ### raiseCmdError -/

@[simp] theorem State.raiseCmdError_mem (s : State) (code : ErrCode) : (s.raiseCmdError code).mem = s.mem := rfl
@[simp] theorem State.raiseCmdError_config (s : State) (code : ErrCode) :
    (s.raiseCmdError code).config = s.config := rfl
@[simp] theorem State.raiseCmdError_status (s : State) (code : ErrCode) :
    (s.raiseCmdError code).status = { s.status with done := true, err := code } := rfl
@[simp] theorem State.raiseCmdError_ctrl (s : State) (code : ErrCode) : (s.raiseCmdError code).ctrl = s.ctrl := rfl
@[simp] theorem State.raiseCmdError_lc (s : State) (code : ErrCode) : (s.raiseCmdError code).lc = s.lc := rfl
@[simp] theorem State.raiseCmdError_layout0 (s : State) (code : ErrCode) :
    (s.raiseCmdError code).layout0 = s.layout0 := rfl
@[simp] theorem State.raiseCmdError_layout1 (s : State) (code : ErrCode) :
    (s.raiseCmdError code).layout1 = s.layout1 := rfl
@[simp] theorem State.raiseCmdError_obsList (s : State) (code : ErrCode) :
    (s.raiseCmdError code).obsList = s.obsList := rfl
@[simp] theorem State.raiseCmdError_inputs (s : State) (code : ErrCode) :
    (s.raiseCmdError code).inputs = s.inputs := rfl
@[simp] theorem State.raiseCmdError_response (s : State) (code : ErrCode) :
    (s.raiseCmdError code).response = s.response := rfl
@[simp] theorem State.raiseCmdError_draws (s : State) (code : ErrCode) : (s.raiseCmdError code).draws = s.draws := rfl

/-! ### acknowledge -/

@[simp] theorem State.acknowledge_mem (s : State) (v : Word) : (s.acknowledge v).mem = s.mem := rfl
@[simp] theorem State.acknowledge_config (s : State) (v : Word) : (s.acknowledge v).config = s.config := rfl
@[simp] theorem State.acknowledge_status (s : State) (v : Word) :
    (s.acknowledge v).status = { s.status with done := s.status.done && !v.getLsbD 1, ovr := s.status.ovr && !v.getLsbD 2 } := rfl
@[simp] theorem State.acknowledge_ctrl (s : State) (v : Word) : (s.acknowledge v).ctrl = s.ctrl := rfl
@[simp] theorem State.acknowledge_lc (s : State) (v : Word) : (s.acknowledge v).lc = s.lc := rfl
@[simp] theorem State.acknowledge_layout0 (s : State) (v : Word) : (s.acknowledge v).layout0 = s.layout0 := rfl
@[simp] theorem State.acknowledge_layout1 (s : State) (v : Word) : (s.acknowledge v).layout1 = s.layout1 := rfl
@[simp] theorem State.acknowledge_obsList (s : State) (v : Word) : (s.acknowledge v).obsList = s.obsList := rfl
@[simp] theorem State.acknowledge_inputs (s : State) (v : Word) : (s.acknowledge v).inputs = s.inputs := rfl
@[simp] theorem State.acknowledge_response (s : State) (v : Word) : (s.acknowledge v).response = s.response := rfl
@[simp] theorem State.acknowledge_draws (s : State) (v : Word) : (s.acknowledge v).draws = s.draws := rfl

/-! ### accept -/

@[simp] theorem State.accept_mem (s : State) (cmd : Word) : (s.accept cmd).mem = s.mem := rfl
@[simp] theorem State.accept_config (s : State) (cmd : Word) : (s.accept cmd).config = s.config := rfl
@[simp] theorem State.accept_status (s : State) (cmd : Word) :
    (s.accept cmd).status = { s.status with busy := true, done := false, err := .none } := rfl
@[simp] theorem State.accept_ctrl (s : State) (cmd : Word) : (s.accept cmd).ctrl = s.ctrl := rfl
@[simp] theorem State.accept_lc (s : State) (cmd : Word) : (s.accept cmd).lc = some cmd := rfl
@[simp] theorem State.accept_layout0 (s : State) (cmd : Word) : (s.accept cmd).layout0 = s.layout0 := rfl
@[simp] theorem State.accept_layout1 (s : State) (cmd : Word) : (s.accept cmd).layout1 = s.layout1 := rfl
@[simp] theorem State.accept_obsList (s : State) (cmd : Word) : (s.accept cmd).obsList = s.obsList := rfl
@[simp] theorem State.accept_inputs (s : State) (cmd : Word) : (s.accept cmd).inputs = s.inputs := rfl
@[simp] theorem State.accept_response (s : State) (cmd : Word) : (s.accept cmd).response = s.response := rfl
@[simp] theorem State.accept_draws (s : State) (cmd : Word) : (s.accept cmd).draws = s.draws := rfl

/-! ### complete -/

@[simp] theorem State.complete_mem (s : State) : (s.complete).mem = s.mem := rfl
@[simp] theorem State.complete_config (s : State) : (s.complete).config = s.config := rfl
@[simp] theorem State.complete_status (s : State) :
    (s.complete).status = { s.status with busy := false, done := true } := rfl
@[simp] theorem State.complete_ctrl (s : State) : (s.complete).ctrl = s.ctrl := rfl
@[simp] theorem State.complete_lc (s : State) : (s.complete).lc = none := rfl
@[simp] theorem State.complete_layout0 (s : State) : (s.complete).layout0 = s.layout0 := rfl
@[simp] theorem State.complete_layout1 (s : State) : (s.complete).layout1 = s.layout1 := rfl
@[simp] theorem State.complete_obsList (s : State) : (s.complete).obsList = s.obsList := rfl
@[simp] theorem State.complete_inputs (s : State) : (s.complete).inputs = s.inputs := rfl
@[simp] theorem State.complete_response (s : State) : (s.complete).response = s.response := rfl
@[simp] theorem State.complete_draws (s : State) : (s.complete).draws = s.draws := rfl

/-! ### raiseBusError -/

@[simp] theorem State.raiseBusError_mem (s : State) (addr : BitVec 12) : (s.raiseBusError addr).mem = s.mem := rfl
@[simp] theorem State.raiseBusError_config (s : State) (addr : BitVec 12) :
    (s.raiseBusError addr).config = s.config := rfl
@[simp] theorem State.raiseBusError_status (s : State) (addr : BitVec 12) :
    (s.raiseBusError addr).status = s.status := rfl
@[simp] theorem State.raiseBusError_ctrl (s : State) (addr : BitVec 12) : (s.raiseBusError addr).ctrl = s.ctrl := rfl
@[simp] theorem State.raiseBusError_lc (s : State) (addr : BitVec 12) : (s.raiseBusError addr).lc = s.lc := rfl
@[simp] theorem State.raiseBusError_layout0 (s : State) (addr : BitVec 12) :
    (s.raiseBusError addr).layout0 = s.layout0 := rfl
@[simp] theorem State.raiseBusError_layout1 (s : State) (addr : BitVec 12) :
    (s.raiseBusError addr).layout1 = s.layout1 := rfl
@[simp] theorem State.raiseBusError_obsList (s : State) (addr : BitVec 12) :
    (s.raiseBusError addr).obsList = s.obsList := rfl
@[simp] theorem State.raiseBusError_inputs (s : State) (addr : BitVec 12) :
    (s.raiseBusError addr).inputs = s.inputs := rfl
@[simp] theorem State.raiseBusError_response (s : State) (addr : BitVec 12) :
    (s.raiseBusError addr).response = .busError addr := rfl
@[simp] theorem State.raiseBusError_draws (s : State) (addr : BitVec 12) :
    (s.raiseBusError addr).draws = s.draws := rfl

/-! ### dropWrite -/

@[simp] theorem State.dropWrite_mem (s : State) : (s.dropWrite).mem = s.mem := rfl
@[simp] theorem State.dropWrite_config (s : State) : (s.dropWrite).config = s.config := rfl
@[simp] theorem State.dropWrite_status (s : State) : (s.dropWrite).status = { s.status with ovr := true } := rfl
@[simp] theorem State.dropWrite_ctrl (s : State) : (s.dropWrite).ctrl = s.ctrl := rfl
@[simp] theorem State.dropWrite_lc (s : State) : (s.dropWrite).lc = s.lc := rfl
@[simp] theorem State.dropWrite_layout0 (s : State) : (s.dropWrite).layout0 = s.layout0 := rfl
@[simp] theorem State.dropWrite_layout1 (s : State) : (s.dropWrite).layout1 = s.layout1 := rfl
@[simp] theorem State.dropWrite_obsList (s : State) : (s.dropWrite).obsList = s.obsList := rfl
@[simp] theorem State.dropWrite_inputs (s : State) : (s.dropWrite).inputs = s.inputs := rfl
@[simp] theorem State.dropWrite_response (s : State) : (s.dropWrite).response = .written := rfl
@[simp] theorem State.dropWrite_draws (s : State) : (s.dropWrite).draws = s.draws := rfl

/-! ### drawRead -/

@[simp] theorem State.drawRead_mem (s : State) : (s.drawRead).mem = s.mem := rfl
@[simp] theorem State.drawRead_config (s : State) : (s.drawRead).config = s.config := rfl
@[simp] theorem State.drawRead_status (s : State) : (s.drawRead).status = s.status := rfl
@[simp] theorem State.drawRead_ctrl (s : State) : (s.drawRead).ctrl = s.ctrl := rfl
@[simp] theorem State.drawRead_lc (s : State) : (s.drawRead).lc = s.lc := rfl
@[simp] theorem State.drawRead_layout0 (s : State) : (s.drawRead).layout0 = s.layout0 := rfl
@[simp] theorem State.drawRead_layout1 (s : State) : (s.drawRead).layout1 = s.layout1 := rfl
@[simp] theorem State.drawRead_obsList (s : State) : (s.drawRead).obsList = s.obsList := rfl
@[simp] theorem State.drawRead_inputs (s : State) : (s.drawRead).inputs = s.inputs := rfl
@[simp] theorem State.drawRead_response (s : State) : (s.drawRead).response = .data (Config.busyRead s.draws) := rfl
@[simp] theorem State.drawRead_draws (s : State) : (s.drawRead).draws = s.draws + 1 := rfl

/-! ### resetBlock -/

@[simp] theorem State.resetBlock_mem (s : State) : (s.resetBlock).mem = [] := rfl
@[simp] theorem State.resetBlock_config (s : State) : (s.resetBlock).config = ConfigReg.reset := rfl
@[simp] theorem State.resetBlock_status (s : State) : (s.resetBlock).status = Status.reset := rfl
@[simp] theorem State.resetBlock_ctrl (s : State) : (s.resetBlock).ctrl = Ctrl.reset := rfl
@[simp] theorem State.resetBlock_lc (s : State) : (s.resetBlock).lc = none := rfl
@[simp] theorem State.resetBlock_layout0 (s : State) : (s.resetBlock).layout0 = s.layout0 := rfl
@[simp] theorem State.resetBlock_layout1 (s : State) : (s.resetBlock).layout1 = s.layout1 := rfl
@[simp] theorem State.resetBlock_obsList (s : State) : (s.resetBlock).obsList = [] := rfl
@[simp] theorem State.resetBlock_inputs (s : State) : (s.resetBlock).inputs = s.inputs := rfl
@[simp] theorem State.resetBlock_response (s : State) : (s.resetBlock).response = .none := rfl
@[simp] theorem State.resetBlock_draws (s : State) : (s.resetBlock).draws = s.draws := rfl

/-! ### present -/

@[simp] theorem State.present_mem (s : State) (cmd : Word) (k : Option ErrCode) :
    (s.present cmd k).mem = s.mem := by cases k <;> rfl
@[simp] theorem State.present_config (s : State) (cmd : Word) (k : Option ErrCode) :
    (s.present cmd k).config = s.config := by cases k <;> rfl
@[simp] theorem State.present_ctrl (s : State) (cmd : Word) (k : Option ErrCode) :
    (s.present cmd k).ctrl = s.ctrl := by cases k <;> rfl
@[simp] theorem State.present_layout0 (s : State) (cmd : Word) (k : Option ErrCode) :
    (s.present cmd k).layout0 = s.layout0 := by cases k <;> rfl
@[simp] theorem State.present_layout1 (s : State) (cmd : Word) (k : Option ErrCode) :
    (s.present cmd k).layout1 = s.layout1 := by cases k <;> rfl
@[simp] theorem State.present_obsList (s : State) (cmd : Word) (k : Option ErrCode) :
    (s.present cmd k).obsList = s.obsList := by cases k <;> rfl
@[simp] theorem State.present_inputs (s : State) (cmd : Word) (k : Option ErrCode) :
    (s.present cmd k).inputs = s.inputs := by cases k <;> rfl
@[simp] theorem State.present_response (s : State) (cmd : Word) (k : Option ErrCode) :
    (s.present cmd k).response = s.response := by cases k <;> rfl
@[simp] theorem State.present_draws (s : State) (cmd : Word) (k : Option ErrCode) :
    (s.present cmd k).draws = s.draws := by cases k <;> rfl

@[simp] theorem State.present_some (s : State) (cmd : Word) (code : ErrCode) :
    s.present cmd (some code) = s.raiseCmdError code := rfl
@[simp] theorem State.present_none (s : State) (cmd : Word) : s.present cmd none = s.accept cmd := rfl

end Sys2Proof.Machine
end

