-- ==== Sys2Proof/Laws/Memory.lean ====
section
/-! SUPPORT. The laws of the memory operations: what a byte reads after a store, that every store keeps the canonical
form, and when a run of bytes or words can be read. -/

namespace Sys2Proof.Machine

/-! ### One byte -/

theorem Memory.read?_append (m m' : Memory) (x : Nat) :
    Memory.read? (m ++ m') x = (m.read? x).or (m'.read? x) := by
  induction m with
  | nil => simp [Memory.read?]
  | cons c m ih =>
    obtain ⟨k, b⟩ := c
    by_cases h : k = x <;> simp [Memory.read?, h, ih]

theorem Memory.read?_filter (p : Nat → Bool) (m : Memory) (x : Nat) :
    Memory.read? (m.filter (fun c => p c.1)) x = if p x then m.read? x else none := by
  induction m with
  | nil => simp [Memory.read?]
  | cons c m ih =>
    obtain ⟨k, b⟩ := c
    by_cases hp : p k = true
    · by_cases h : k = x
      · subst h; simp [Memory.read?, hp]
      · simp [Memory.read?, hp, h, ih]
    · by_cases h : k = x
      · subst h; simp only [Bool.not_eq_true] at hp; simp [hp, ih]
      · simp only [Bool.not_eq_true] at hp; simp [Memory.read?, hp, h, ih]

theorem read?_cellsAt (bs : List Byte) (a x : Nat) :
    Memory.read? (cellsAt a bs) x = if a ≤ x then bs[x - a]? else none := by
  induction bs generalizing a with
  | nil => simp [cellsAt, Memory.read?]
  | cons b bs ih =>
    by_cases h : a = x
    · subst h; simp [cellsAt, Memory.read?]
    · by_cases hle : a ≤ x
      · have h1 : a + 1 ≤ x := by omega
        have h2 : x - a = (x - (a + 1)) + 1 := by omega
        simp [cellsAt, Memory.read?, h, ih, h1, hle, h2]
      · have h1 : ¬ a + 1 ≤ x := by omega
        simp [cellsAt, Memory.read?, h, ih, h1, hle]

/-- What a byte reads after a store: the stored byte inside the run, the old byte outside it. -/
theorem Memory.read?_writeBlock (m : Memory) (a : Nat) (bs : List Byte) (x : Nat) :
    (m.writeBlock a bs).read? x = if a ≤ x ∧ x < a + bs.length then bs[x - a]? else m.read? x := by
  unfold Memory.writeBlock
  rw [Memory.read?_append, Memory.read?_append, Memory.read?_filter (fun k => decide (k < a)), read?_cellsAt,
    Memory.read?_filter (fun k => decide (a + bs.length ≤ k))]
  by_cases h1 : x < a
  · have : ¬ a ≤ x := by omega
    have h3 : ¬ a + bs.length ≤ x := by omega
    simp [h1, this, h3]
  · have ha : a ≤ x := by omega
    by_cases h2 : x < a + bs.length
    · have h3 : ¬ a + bs.length ≤ x := by omega
      simp [h1, h2, ha, h3]
    · have h3 : a + bs.length ≤ x := by omega
      have h4 : bs[x - a]? = none := List.getElem?_eq_none (by omega)
      simp [h1, h2, ha, h3, h4]

theorem Memory.read?_writeBlock_of_outside (m : Memory) (a : Nat) (bs : List Byte) (x : Nat)
    (h : x < a ∨ a + bs.length ≤ x) : (m.writeBlock a bs).read? x = m.read? x := by
  rw [Memory.read?_writeBlock, if_neg (by omega)]

theorem Memory.read?_writeBlock_of_inside (m : Memory) (a : Nat) (bs : List Byte) (i : Nat) (h : i < bs.length) :
    (m.writeBlock a bs).read? (a + i) = some bs[i] := by
  rw [Memory.read?_writeBlock, if_pos (by omega)]
  simp [h]

/-! ### The canonical form -/

theorem cellsAt_bounds (bs : List Byte) (a : Nat) (c : Host.Cell) (h : c ∈ cellsAt a bs) :
    a ≤ c.1 ∧ c.1 < a + bs.length := by
  induction bs generalizing a with
  | nil => simp [cellsAt] at h
  | cons b bs ih =>
    simp only [cellsAt, List.mem_cons] at h
    rcases h with rfl | h
    · simp
    · have := ih (a + 1) h
      simp only [List.length_cons]; omega

theorem cellsAt_wf (bs : List Byte) (a : Nat) : Memory.wf (cellsAt a bs) := by
  induction bs generalizing a with
  | nil => simp [Memory.wf, cellsAt]
  | cons b bs ih =>
    refine List.Pairwise.cons ?_ (ih (a + 1))
    intro c hc
    have := cellsAt_bounds bs (a + 1) c hc
    simp only; omega

/-- Every store keeps the canonical form. -/
theorem Memory.writeBlock_wf (m : Memory) (a : Nat) (bs : List Byte) (h : m.wf) : (m.writeBlock a bs).wf := by
  unfold Memory.wf Memory.writeBlock
  refine List.pairwise_append.2 ⟨List.pairwise_append.2 ⟨List.Pairwise.filter _ h, cellsAt_wf bs a, ?_⟩,
    List.Pairwise.filter _ h, ?_⟩
  · intro c hc d hd
    have h1 := cellsAt_bounds bs a d hd
    have h2 := (List.mem_filter.1 hc).2
    simp only [decide_eq_true_eq] at h2; omega
  · intro c hc d hd
    have h2 := (List.mem_filter.1 hd).2
    simp only [decide_eq_true_eq] at h2
    rcases List.mem_append.1 hc with hc | hc
    · have h1 := (List.mem_filter.1 hc).2
      simp only [decide_eq_true_eq] at h1; omega
    · have h1 := cellsAt_bounds bs a c hc
      omega

theorem Memory.writeWords_wf (m : Memory) (a : Nat) (ws : List Word) (h : m.wf) : (m.writeWords a ws).wf :=
  m.writeBlock_wf a _ h

/-- Where the cells of a memory after a store lie. -/
theorem Memory.mem_writeBlock (m : Memory) (a : Nat) (bs : List Byte) (c : Host.Cell) (h : c ∈ m.writeBlock a bs) :
    c ∈ m ∨ (a ≤ c.1 ∧ c.1 < a + bs.length) := by
  unfold Memory.writeBlock at h
  rcases List.mem_append.1 h with h | h
  · rcases List.mem_append.1 h with h | h
    · exact .inl (List.mem_filter.1 h).1
    · exact .inr (cellsAt_bounds bs a c h)
  · exact .inl (List.mem_filter.1 h).1

/-! ### Runs of bytes -/

/-- A run of bytes reads as `bs` exactly when each of its bytes does. -/
theorem Memory.readBlock_ok_iff (m : Memory) (a n : Nat) (bs : List Byte) :
    m.readBlock a n = .ok bs ↔ bs.length = n ∧ ∀ i, i < n → m.read? (a + i) = bs[i]? := by
  induction n generalizing a bs with
  | zero => cases bs <;> simp [Memory.readBlock]
  | succ n ih =>
    have split_index : ∀ (b : Byte) (l : List Byte), m.read? a = some b → l.length = n →
        (∀ i, i < n → m.read? (a + 1 + i) = l[i]?) → ∀ i, i < n + 1 → m.read? (a + i) = (b :: l)[i]? := by
      intro b l hb _ hl i hi
      cases i with
      | zero => simpa using hb
      | succ i =>
        have := hl i (by omega)
        simpa [Nat.add_assoc, Nat.add_comm 1 i] using this
    constructor
    · intro h
      unfold Memory.readBlock at h
      cases hb : m.read? a with
      | none => simp [hb] at h
      | some b =>
        simp only [hb] at h
        cases hr : m.readBlock (a + 1) n with
        | error f => simp [hr] at h
        | ok l =>
          simp only [hr, Except.ok.injEq] at h
          obtain ⟨hl, hi⟩ := (ih (a + 1) l).1 hr
          subst h
          exact ⟨by simp [hl], split_index b l hb hl hi⟩
    · rintro ⟨hlen, hi⟩
      cases bs with
      | nil => simp at hlen
      | cons b l =>
        have h0 : m.read? a = some b := by simpa using hi 0 (by omega)
        have hl : l.length = n := by simpa using hlen
        have hr : m.readBlock (a + 1) n = .ok l := (ih (a + 1) l).2 ⟨hl, fun i hin => by
          have := hi (i + 1) (by omega)
          simpa [Nat.add_assoc, Nat.add_comm 1 i] using this⟩
        simp [Memory.readBlock, h0, hr]

/-- A run of bytes that cannot be read names a byte of it that nothing has written. -/
theorem Memory.readBlock_error (m : Memory) (a n : Nat) (f : Fault) (h : m.readBlock a n = .error f) :
    ∃ x, a ≤ x ∧ x < a + n ∧ m.read? x = none ∧ f = .unwritten x := by
  induction n generalizing a with
  | zero => simp [Memory.readBlock] at h
  | succ n ih =>
    unfold Memory.readBlock at h
    cases hb : m.read? a with
    | none =>
      simp only [hb, Except.error.injEq] at h
      exact ⟨a, Nat.le_refl a, by omega, hb, h.symm⟩
    | some b =>
      simp only [hb] at h
      cases hr : m.readBlock (a + 1) n with
      | error g =>
        simp only [hr, Except.error.injEq] at h
        subst h
        obtain ⟨x, h1, h2, h3, h4⟩ := ih (a + 1) hr
        exact ⟨x, by omega, by omega, h3, h4⟩
      | ok l => simp [hr] at h

/-- Two memories that agree on a run read it alike. -/
theorem Memory.readBlock_congr (m m' : Memory) (a n : Nat)
    (h : ∀ x, a ≤ x → x < a + n → m.read? x = m'.read? x) : m.readBlock a n = m'.readBlock a n := by
  induction n generalizing a with
  | zero => rfl
  | succ n ih =>
    have h0 := h a (Nat.le_refl a) (by omega)
    have hr := ih (a + 1) (fun x h1 h2 => h x (by omega) (by omega))
    simp only [Memory.readBlock, h0, hr]

theorem Memory.readBlock_writeBlock_same (m : Memory) (a : Nat) (bs : List Byte) :
    (m.writeBlock a bs).readBlock a bs.length = .ok bs :=
  (Memory.readBlock_ok_iff _ _ _ _).2 ⟨rfl, fun i hi => by
    rw [Memory.read?_writeBlock_of_inside _ _ _ _ hi]; simp [hi]⟩

theorem Memory.readBlock_writeBlock_of_disjoint (m : Memory) (a b n : Nat) (bs : List Byte)
    (h : b + n ≤ a ∨ a + bs.length ≤ b) : (m.writeBlock a bs).readBlock b n = m.readBlock b n :=
  Memory.readBlock_congr _ _ _ _ fun x h1 h2 => Memory.read?_writeBlock_of_outside _ _ _ _ (by omega)

/-! ### Words -/

theorem wordOfBytes_of_wordBytes (w : Word) :
    wordOfBytes (w.extractLsb' 0 8) (w.extractLsb' 8 8) (w.extractLsb' 16 8) (w.extractLsb' 24 8) = w := by
  apply BitVec.eq_of_getLsbD_eq
  intro i hi
  simp only [wordOfBytes, BitVec.getLsbD_append, BitVec.getLsbD_extractLsb']
  by_cases h1 : i < 8
  · simp [h1]
  · by_cases h2 : i < 16
    · have e : 8 + (i - 8) = i := by omega
      have : i - 8 < 8 := by omega
      simp [h1, this, e]
    · by_cases h3 : i < 24
      · have e : 16 + (i - 8 - 8) = i := by omega
        have a1 : ¬ i - 8 < 8 := by omega
        have a2 : i - 8 - 8 < 8 := by omega
        simp [h1, a1, a2, e]
      · have e : 24 + (i - 8 - 8 - 8) = i := by omega
        have a1 : ¬ i - 8 < 8 := by omega
        have a2 : ¬ i - 8 - 8 < 8 := by omega
        have a3 : i - 8 - 8 - 8 < 8 := by omega
        simp [h1, a1, a2, a3, e]

theorem wordBytes_of_wordOfBytes (b0 b1 b2 b3 : Byte) : wordBytes (wordOfBytes b0 b1 b2 b3) = [b0, b1, b2, b3] := by
  simp only [wordBytes, wordOfBytes, List.cons.injEq, and_true]
  refine ⟨?_, ?_, ?_, ?_⟩ <;>
    (apply BitVec.eq_of_getLsbD_eq; intro i hi
     simp only [BitVec.getLsbD_extractLsb', BitVec.getLsbD_append, hi, decide_true, Bool.true_and])
  · simp [hi]
  · have : ¬ 8 + i < 8 := by omega
    have e : 8 + i - 8 = i := by omega
    simp [this, e, hi]
  · have a1 : ¬ 16 + i < 8 := by omega
    have a2 : ¬ 16 + i - 8 < 8 := by omega
    have e : 16 + i - 8 - 8 = i := by omega
    simp [a1, a2, e, hi]
  · have a1 : ¬ 24 + i < 8 := by omega
    have a2 : ¬ 24 + i - 8 < 8 := by omega
    have a3 : ¬ 24 + i - 8 - 8 < 8 := by omega
    have e : 24 + i - 8 - 8 - 8 = i := by omega
    simp [a1, a2, a3, e]

@[simp] theorem length_wordBytes (w : Word) : (wordBytes w).length = 4 := rfl

@[simp] theorem length_flatMap_wordBytes (ws : List Word) : (ws.flatMap wordBytes).length = 4 * ws.length := by
  induction ws with
  | nil => rfl
  | cons w ws ih => simp [List.flatMap_cons, ih]; omega

theorem Memory.readWord_ok_iff (m : Memory) (a : Nat) (w : Word) :
    m.readWord a = .ok w ↔ m.readBlock a 4 = .ok (wordBytes w) := by
  constructor
  · intro h
    unfold Memory.readWord at h
    cases hb : m.readBlock a 4 with
    | error f => simp [hb] at h
    | ok bs =>
      have hl := ((Memory.readBlock_ok_iff _ _ _ _).1 hb).1
      match bs, hl with
      | [b0, b1, b2, b3], _ =>
        simp only [hb, Except.ok.injEq] at h
        rw [← h, wordBytes_of_wordOfBytes]
  · intro h
    simp only [Memory.readWord, h, wordBytes, wordOfBytes_of_wordBytes]

/-- A word that cannot be read names a byte of it that nothing has written. -/
theorem Memory.readWord_error (m : Memory) (a : Nat) (f : Fault) (h : m.readWord a = .error f) :
    ∃ x, a ≤ x ∧ x < a + 4 ∧ m.read? x = none ∧ f = .unwritten x := by
  unfold Memory.readWord at h
  cases hb : m.readBlock a 4 with
  | error g =>
    simp only [hb, Except.error.injEq] at h
    subst h
    exact m.readBlock_error a 4 g hb
  | ok bs =>
    have hl := ((Memory.readBlock_ok_iff _ _ _ _).1 hb).1
    match bs, hl with
    | [b0, b1, b2, b3], _ => simp [hb] at h

theorem Memory.readWord_congr (m m' : Memory) (a : Nat)
    (h : ∀ x, a ≤ x → x < a + 4 → m.read? x = m'.read? x) : m.readWord a = m'.readWord a := by
  simp only [Memory.readWord, Memory.readBlock_congr m m' a 4 h]

/-- A run of words reads as `ws` exactly when each of them does. -/
theorem Memory.readWords_ok_iff (m : Memory) (a n : Nat) (ws : List Word) :
    m.readWords a n = .ok ws ↔ ws.length = n ∧ ∀ i, (h : i < ws.length) → m.readWord (a + 4 * i) = .ok ws[i] := by
  induction n generalizing a ws with
  | zero => cases ws <;> simp [Memory.readWords]
  | succ n ih =>
    constructor
    · intro h
      unfold Memory.readWords at h
      cases hw : m.readWord a with
      | error f => simp [hw] at h
      | ok w =>
        simp only [hw] at h
        cases hr : m.readWords (a + 4) n with
        | error f => simp [hr] at h
        | ok l =>
          simp only [hr, Except.ok.injEq] at h
          obtain ⟨hl, hi⟩ := (ih (a + 4) l).1 hr
          subst h
          refine ⟨by simp [hl], fun i hi' => ?_⟩
          cases i with
          | zero => simpa using hw
          | succ i =>
            have := hi i (by simpa using hi')
            have e : a + 4 * (i + 1) = a + 4 + 4 * i := by omega
            simpa [e] using this
    · rintro ⟨hlen, hi⟩
      cases ws with
      | nil => simp at hlen
      | cons w l =>
        have h0 : m.readWord a = .ok w := hi 0 (Nat.succ_pos _)
        have hr : m.readWords (a + 4) n = .ok l := (ih (a + 4) l).2 ⟨by simpa using hlen, fun i hin => by
          have := hi (i + 1) (by simpa using hin)
          have e : a + 4 * (i + 1) = a + 4 + 4 * i := by omega
          simpa [e] using this⟩
        simp [Memory.readWords, h0, hr]

/-- A run of words that cannot be read names a byte of it that nothing has written. -/
theorem Memory.readWords_error (m : Memory) (a n : Nat) (f : Fault) (h : m.readWords a n = .error f) :
    ∃ x, a ≤ x ∧ x < a + 4 * n ∧ m.read? x = none ∧ f = .unwritten x := by
  induction n generalizing a with
  | zero => simp [Memory.readWords] at h
  | succ n ih =>
    unfold Memory.readWords at h
    cases hw : m.readWord a with
    | error g =>
      simp only [hw, Except.error.injEq] at h
      subst h
      obtain ⟨x, h1, h2, h3, h4⟩ := m.readWord_error a g hw
      exact ⟨x, h1, by omega, h3, h4⟩
    | ok w =>
      simp only [hw] at h
      cases hr : m.readWords (a + 4) n with
      | error g =>
        simp only [hr, Except.error.injEq] at h
        subst h
        obtain ⟨x, h1, h2, h3, h4⟩ := ih (a + 4) hr
        exact ⟨x, by omega, by omega, h3, h4⟩
      | ok l => simp [hr] at h

theorem Memory.readWords_congr (m m' : Memory) (a n : Nat)
    (h : ∀ x, a ≤ x → x < a + 4 * n → m.read? x = m'.read? x) : m.readWords a n = m'.readWords a n := by
  induction n generalizing a with
  | zero => rfl
  | succ n ih =>
    have h0 := m.readWord_congr m' a (fun x h1 h2 => h x h1 (by omega))
    have hr := ih (a + 4) (fun x h1 h2 => h x (by omega) (by omega))
    simp only [Memory.readWords, h0, hr]

theorem flatMap_wordBytes_getElem? (ws : List Word) (i j : Nat) (hi : i < ws.length) (hj : j < 4) :
    (ws.flatMap wordBytes)[4 * i + j]? = (wordBytes ws[i])[j]? := by
  induction ws generalizing i with
  | nil => simp at hi
  | cons w ws ih =>
    cases i with
    | zero =>
      simp only [List.flatMap_cons, Nat.mul_zero, Nat.zero_add, List.getElem_cons_zero]
      rw [List.getElem?_append_left (by simpa using hj)]
    | succ i =>
      have e : 4 * (i + 1) + j - 4 = 4 * i + j := by omega
      have hle : (wordBytes w).length ≤ 4 * (i + 1) + j := by rw [length_wordBytes]; omega
      rw [List.flatMap_cons, List.getElem?_append_right hle, length_wordBytes, e, List.getElem_cons_succ]
      exact ih i (by simpa using hi)

/-- Words just stored read back. -/
theorem Memory.readWords_writeWords_same (m : Memory) (a : Nat) (ws : List Word) :
    (m.writeWords a ws).readWords a ws.length = .ok ws := by
  refine (Memory.readWords_ok_iff _ _ _ _).2 ⟨rfl, fun i hi => (Memory.readWord_ok_iff _ _ _).2 ?_⟩
  refine (Memory.readBlock_ok_iff _ _ _ _).2 ⟨rfl, fun j hj => ?_⟩
  rw [← flatMap_wordBytes_getElem? ws i j hi hj]
  unfold Memory.writeWords
  rw [Nat.add_assoc, Memory.read?_writeBlock, if_pos (by rw [length_flatMap_wordBytes]; omega)]
  simp

/-- Words stored elsewhere leave a word alone. -/
theorem Memory.readWord_writeWords_of_disjoint (m : Memory) (a b : Nat) (ws : List Word)
    (h : b + 4 ≤ a ∨ a + 4 * ws.length ≤ b) : (m.writeWords a ws).readWord b = m.readWord b :=
  Memory.readWord_congr _ _ _ fun x h1 h2 =>
    Memory.read?_writeBlock_of_outside _ _ _ _ (by rw [length_flatMap_wordBytes]; omega)

theorem Memory.read?_writeWords_of_outside (m : Memory) (a : Nat) (ws : List Word) (x : Nat)
    (h : x < a ∨ a + 4 * ws.length ≤ x) : (m.writeWords a ws).read? x = m.read? x :=
  Memory.read?_writeBlock_of_outside _ _ _ _ (by rw [length_flatMap_wordBytes]; omega)

end Sys2Proof.Machine
end

