-- ==== Sys2Proof/Laws/Cipher.lean ====
section
/-! SUPPORT. The cipher's operations keep the number of words, forward and back, and touch one word a step. -/

namespace Sys2Proof.Machine

@[simp] theorem length_cipherStep (n : Nat) (sum : Word) (e p : Nat) (v : List Word) :
    (cipherStep n sum e p v).length = v.length := by
  simp [cipherStep]

@[simp] theorem length_cipherSweep (n : Nat) (sum : Word) (e p : Nat) (v : List Word) :
    (cipherSweep n sum e p v).length = v.length := by
  induction p generalizing v with
  | zero => rfl
  | succ p ih => simp [cipherSweep, ih]

@[simp] theorem length_cipherRounds (n k : Nat) (c : CipherState) :
    (cipherRounds n k c).words.length = c.words.length := by
  induction k generalizing c with
  | zero => rfl
  | succ k ih => simp [cipherRounds, ih, cipherRound]

@[simp] theorem length_xxteaDecrypt (n br : Nat) (v : List Word) : (xxteaDecrypt n br v).length = v.length := by
  simp [xxteaDecrypt]

@[simp] theorem length_forwardStep (n : Nat) (sum : Word) (e p : Nat) (v : List Word) :
    (forwardStep n sum e p v).length = v.length := by
  simp [forwardStep]

@[simp] theorem length_forwardSweep (n : Nat) (sum : Word) (e p : Nat) (v : List Word) :
    (forwardSweep n sum e p v).length = v.length := by
  induction p with
  | zero => rfl
  | succ p ih => simp [forwardSweep, ih]

@[simp] theorem length_forwardRounds (n k : Nat) (c : CipherState) :
    (forwardRounds n k c).words.length = c.words.length := by
  induction k with
  | zero => rfl
  | succ k ih => simp [forwardRounds, forwardRound, ih]

@[simp] theorem length_xxteaEncrypt (n br : Nat) (v : List Word) : (xxteaEncrypt n br v).length = v.length := by
  simp [xxteaEncrypt]

/-- A step on word `p` leaves every other word alone (40_cipher.md R106). -/
theorem cipherStep_getD_of_ne (n : Nat) (sum : Word) (e p q : Nat) (v : List Word) (h : q ≠ p) :
    (cipherStep n sum e p v).getD q 0#32 = v.getD q 0#32 := by
  simp [cipherStep, List.getD_eq_getElem?_getD, Ne.symm h]

/-- The new value of word `p` after a step on it (40_cipher.md R106). -/
theorem cipherStep_getD_self (n : Nat) (sum : Word) (e p : Nat) (v : List Word) (h : p < v.length) :
    (cipherStep n sum e p v).getD p 0#32
      = v.getD p 0#32 - mx (v.getD ((p + 1) % n) 0#32) (v.getD ((p + n - 1) % n) 0#32) sum e p := by
  simp [cipherStep, List.getD_eq_getElem?_getD, h]

/-- A forward step on word `p` leaves every other word alone. -/
theorem forwardStep_getD_of_ne (n : Nat) (sum : Word) (e p q : Nat) (v : List Word) (h : q ≠ p) :
    (forwardStep n sum e p v).getD q 0#32 = v.getD q 0#32 := by
  simp [forwardStep, List.getD_eq_getElem?_getD, Ne.symm h]

/-- e of a round, by arithmetic on the sum (40_cipher.md R105). -/
theorem roundE_eq (sum : Word) : roundE sum = sum.toNat / 4 % 4 := by
  have h : (3#32).toNat = 2 ^ 2 - 1 := rfl
  simp only [roundE, BitVec.toNat_and, BitVec.toNat_ushiftRight, h, Nat.and_two_pow_sub_one_eq_mod,
    Nat.shiftRight_eq_div_pow]

/-- MX, by arithmetic on the words (40_cipher.md R104). -/
theorem mx_toNat (y z sum : Word) (e p : Nat) :
    (mx y z sum e p).toNat
      = (((z.toNat / 32) ^^^ (y.toNat * 4 % 2 ^ 32)) + ((y.toNat / 8) ^^^ (z.toNat * 16 % 2 ^ 32))) % 2 ^ 32
          ^^^ (((sum.toNat ^^^ y.toNat) + ((key ((p % 4) ^^^ e)).toNat ^^^ z.toNat)) % 2 ^ 32) := by
  have h : p &&& 3 = p % 4 := Nat.and_two_pow_sub_one_eq_mod p 2
  simp only [mx, h, BitVec.toNat_xor, BitVec.toNat_add, BitVec.toNat_ushiftRight, BitVec.toNat_shiftLeft,
    Nat.shiftRight_eq_div_pow, Nat.shiftLeft_eq]

end Sys2Proof.Machine
end

