-- ==== Sys2Proof/Laws/Frame.lean ====
section
/-! SUPPORT. Packing and unpacking, by arithmetic; lengths: of packed and unpacked words, of entries and of the OBS
image, and of the lists the records emit. -/

namespace Sys2Proof.Machine

/-! ### Packing -/

@[simp] theorem length_unpackWord (bo : Bool) (w : Word) : (unpackWord bo w).length = 4 := by cases bo <;> rfl

@[simp] theorem length_unpackWords (bo : Bool) (ws : List Word) : (unpackWords bo ws).length = 4 * ws.length := by
  induction ws with
  | nil => rfl
  | cons w ws ih =>
    have e : unpackWords bo (w :: ws) = unpackWord bo w ++ unpackWords bo ws := rfl
    rw [e, List.length_append, length_unpackWord, ih, List.length_cons]; omega

theorem length_packWords (bo : Bool) (k : Nat) (bs : List Byte) (h : bs.length = 4 * k) :
    (packWords bo bs).length = k := by
  induction k generalizing bs with
  | zero =>
    have : bs = [] := List.length_eq_zero_iff.1 (by omega)
    subst this; rfl
  | succ k ih =>
    match bs, h with
    | b0 :: b1 :: b2 :: b3 :: bs, h =>
      simp only [packWords, List.length_cons]
      rw [ih bs (by simp only [List.length_cons] at h; omega)]
    | [], h => simp at h
    | [_], h => simp at h; omega
    | [_, _], h => simp at h; omega
    | [_, _, _], h => simp at h; omega

theorem length_cryptRegion (w : Nat) (r : List Byte) (hr : r.length = 64) (hw : w ≤ 4) :
    (cryptRegion w r).length = 60 := by
  simp [cryptRegion, hr]; omega

/-- One packed word, by arithmetic on its bytes (41_frame_decoder.md R121). -/
theorem packWord_toNat (bo : Bool) (b0 b1 b2 b3 : Byte) :
    (packWord bo b0 b1 b2 b3).toNat
      = if bo = true then b0.toNat + 2 ^ 8 * b1.toNat + 2 ^ 16 * b2.toNat + 2 ^ 24 * b3.toNat
        else 2 ^ 24 * b0.toNat + 2 ^ 16 * b1.toNat + 2 ^ 8 * b2.toNat + b3.toNat := by
  have h0 := b0.isLt; have h1 := b1.isLt; have h2 := b2.isLt; have h3 := b3.isLt
  have key : ∀ a b c d : Byte, (a ++ b ++ c ++ d : BitVec (8 + 8 + 8 + 8)).toNat
      = 2 ^ 24 * a.toNat + 2 ^ 16 * b.toNat + 2 ^ 8 * c.toNat + d.toNat := by
    intro a b c d
    have ha := a.isLt; have hb := b.isLt; have hc := c.isLt; have hd := d.isLt
    simp only [BitVec.toNat_append, ← Nat.shiftLeft_add_eq_or_of_lt hb,
      ← Nat.shiftLeft_add_eq_or_of_lt hc, ← Nat.shiftLeft_add_eq_or_of_lt hd]
    simp only [Nat.shiftLeft_eq]
    omega
  cases bo
  · exact key b0 b1 b2 b3
  · rw [if_pos rfl]; refine (key b3 b2 b1 b0).trans ?_; omega

/-- The words of a run of bytes are its groups of four, packed (41_frame_decoder.md R120, R121). -/
theorem packWords_getElem? (bo : Bool) (bs : List Byte) (i : Nat) (h : 4 * i + 4 ≤ bs.length) :
    (packWords bo bs)[i]? = some (packWord bo (byteAt bs (4 * i)) (byteAt bs (4 * i + 1)) (byteAt bs (4 * i + 2))
      (byteAt bs (4 * i + 3))) := by
  induction i generalizing bs with
  | zero =>
    match bs, h with
    | b0 :: b1 :: b2 :: b3 :: bs, _ => rfl
    | [], h => simp at h
    | [_], h => simp at h
    | [_, _], h => simp at h
    | [_, _, _], h => simp at h
  | succ i ih =>
    match bs, h with
    | b0 :: b1 :: b2 :: b3 :: bs, h =>
      have hb : ∀ k, byteAt (b0 :: b1 :: b2 :: b3 :: bs) (k + 4) = byteAt bs k := fun k => rfl
      have e : ∀ k, 4 * (i + 1) + k = (4 * i + k) + 4 := by intro k; omega
      simp only [packWords, List.getElem?_cons_succ]
      rw [ih bs (by simp only [List.length_cons] at h; omega), e 1, e 2, e 3, show 4 * (i + 1) = 4 * i + 4 by omega,
        hb, hb, hb, hb]
    | [], h => simp at h
    | [_], h => simp at h
    | [_, _], h => simp at h
    | [_, _, _], h => simp at h

/-- One unpacked byte, by arithmetic on its word (41_frame_decoder.md R123). -/
theorem byteAt_unpackWord (bo : Bool) (w : Word) (j : Nat) (hj : j < 4) :
    (byteAt (unpackWord bo w) j).toNat = w.toNat / 256 ^ (if bo = true then j else 3 - j) % 256 := by
  interval_cases j <;> cases bo <;>
    simp [unpackWord, byteAt, BitVec.extractLsb'_toNat, Nat.shiftRight_eq_div_pow]

/-- The bytes of a run of words are those of its words, unpacked (41_frame_decoder.md R123). -/
theorem byteAt_unpackWords (bo : Bool) (ws : List Word) (i j : Nat) (hi : i < ws.length) (hj : j < 4) :
    byteAt (unpackWords bo ws) (4 * i + j) = byteAt (unpackWord bo (ws.getD i 0#32)) j := by
  induction ws generalizing i with
  | nil => simp at hi
  | cons w ws ih =>
    have e : unpackWords bo (w :: ws) = unpackWord bo w ++ unpackWords bo ws := rfl
    have hl := length_unpackWord bo w
    rw [e]
    simp only [byteAt] at ih ⊢
    cases i with
    | zero => rw [List.getD_append _ _ _ _ (by omega)]; simp
    | succ i =>
      rw [List.getD_append_right _ _ _ _ (by omega), hl, show 4 * (i + 1) + j - 4 = 4 * i + j by omega,
        ih i (by simpa using hi)]; simp

/-- The bytes of the crypt region are those from WOFF on (41_frame_decoder.md R120). -/
theorem byteAt_cryptRegion (w : Nat) (r : List Byte) (k : Nat) (hk : k < 60) :
    byteAt (cryptRegion w r) k = byteAt r (w + k) := by
  simp [byteAt, cryptRegion, List.getD_eq_getElem?_getD, List.getElem?_take_of_lt hk]

theorem ConfigReg.woffLegal_iff (c : ConfigReg) : c.woffLegal = true ↔ 1 ≤ c.woff.toNat ∧ c.woff.toNat ≤ 4 := by
  simp [ConfigReg.woffLegal]

theorem length_decryptedWords (c : ConfigReg) (r : List Byte) (hr : r.length = 64) (hw : c.woffLegal = true) :
    (decryptedWords c r).length = 15 := by
  have h := (c.woffLegal_iff.1 hw).2
  simp [decryptedWords, length_packWords c.bo 15 _ (length_cryptRegion _ r hr h)]

theorem length_unpacked (c : ConfigReg) (r : List Byte) (hr : r.length = 64) (hw : c.woffLegal = true) :
    (unpackWords c.bo (decryptedWords c r)).length = 60 := by
  simp [length_decryptedWords c r hr hw]

theorem length_decodedReport (c : ConfigReg) (r : List Byte) (hr : r.length = 64) (hw : c.woffLegal = true) :
    (decodedReport c r).length = 64 := by
  have h := c.woffLegal_iff.1 hw
  simp [decodedReport, length_unpacked c r hr hw, hr, -length_unpackWords]; omega

/-! ### Entries -/

@[simp] theorem length_encode (o : Observation) : o.encode.length = 8 := by cases o <;> rfl

@[simp] theorem length_flatMap_encode (l : List Observation) :
    (l.flatMap Observation.encode).length = 8 * l.length := by
  induction l with
  | nil => rfl
  | cons o l ih => simp [List.flatMap_cons, ih]; omega

@[simp] theorem length_obsImage (l : List Observation) : (obsImage l).length = 176 := by
  have h : ∀ a b : List Word, b.length = 176 → ((a ++ b).take 176).length = 176 := by
    intro a b hb; rw [List.length_take, List.length_append, hb]; omega
  exact h _ _ List.length_replicate

/-! ### Records and frames -/

@[simp] theorem length_buttons (m : Byte) (c : Fin 2) : (buttons m c).length = 6 := by simp [buttons]

@[simp] theorem length_controllerFields (cfg : ConfigReg) (lay : LayoutTable) (r : List Byte) (c : Fin 2) (b : Nat) :
    (controllerFields cfg lay r c b).length = 11 := by
  simp [controllerFields]

theorem length_frameA5_le (cfg : ConfigReg) (lay : LayoutTable) (r : List Byte) :
    (frameA5 cfg lay r).length ≤ 22 := by
  simp only [frameA5, controllerRecord, List.length_append]
  split <;> split <;> simp

theorem length_frameA6_le (cfg : ConfigReg) (lay : LayoutTable) (r : List Byte) :
    (frameA6 cfg lay r).length ≤ 3 := by
  simp only [frameA6, headsetRecord, baseRecord, List.length_append]
  split <;> split <;> simp

theorem length_decodedList_le (cfg : ConfigReg) (lay : LayoutTable) (r : List Byte) :
    (decodedList cfg lay r).length ≤ 22 := by
  unfold decodedList
  split
  · exact length_frameA5_le _ _ _
  · split
    · exact Nat.le_trans (length_frameA6_le _ _ _) (by decide)
    · simp

end Sys2Proof.Machine
end

