-- ==== Sys2Proof/Laws/Exec.lean ====
section
/-! SUPPORT. Once for each meaning, everything it can do: what state it answers and when it stops. -/

namespace Sys2Proof.Machine

open Host (Outcome)

/-! ### The report and the word buffer -/

theorem State.report_ok_iff (s : State) (r : List Byte) :
    s.report = .ok r ↔ r.length = 64 ∧ ∀ i, i < 64 → s.rb? i = r[i]? := by
  unfold State.report State.rb?
  exact Memory.readBlock_ok_iff _ _ _ _

theorem State.report_error (s : State) (f : Fault) (h : s.report = .error f) :
    ∃ x, x < 64 ∧ s.rb? x = none ∧ f = .unwritten x := by
  obtain ⟨x, _, h2, h3, h4⟩ := Memory.readBlock_error _ _ _ _ h
  refine ⟨x, ?_, ?_, h4⟩
  · simpa [rbBase] using h2
  · simpa [State.rb?, rbBase] using h3

theorem State.wbWords_length (s : State) (n : Nat) (ws : List Word) (h : s.wbWords n = .ok ws) : ws.length = n :=
  ((Memory.readWords_ok_iff _ _ _ _).1 h).1

/-! ### DECRYPT -/

/-- DECRYPT while idle: rejected or accepted. -/
theorem execDecrypt_idle (n : BitVec 4) (br : BitVec 8) (s : State) (h : s.status.busy = false) :
    execDecrypt n br s = .next (s.present (decryptWord n br) (checkDecrypt n)) := by
  simp [execDecrypt, h]

/-- DECRYPT while busy, on written words. -/
theorem execDecrypt_busy (n : BitVec 4) (br : BitVec 8) (s : State) (ws : List Word) (h : s.status.busy = true)
    (hn : 2 ≤ n.toNat) (hw : s.wbWords n.toNat = .ok ws) :
    execDecrypt n br s
      = .next (s.setMem (s.mem.writeWords wbBase (xxteaDecrypt n.toNat br.toNat ws))).complete := by
  have : ¬ n.toNat < 2 := by omega
  simp [execDecrypt, h, performDecrypt, this, hw]

/-- What DECRYPT did, if it answered a next state while busy. -/
theorem execDecrypt_next (n : BitVec 4) (br : BitVec 8) (s t : State) (h : s.status.busy = true)
    (ht : execDecrypt n br s = .next t) :
    2 ≤ n.toNat ∧ ∃ ws, s.wbWords n.toNat = .ok ws
      ∧ t = (s.setMem (s.mem.writeWords wbBase (xxteaDecrypt n.toNat br.toNat ws))).complete := by
  simp only [execDecrypt, h, if_true, performDecrypt] at ht
  by_cases hn : n.toNat < 2
  · simp [hn] at ht
  · simp only [hn, if_false] at ht
    cases hw : s.wbWords n.toNat with
    | error f => simp [hw] at ht
    | ok ws =>
      simp only [hw, Outcome.next.injEq] at ht
      exact ⟨by omega, ws, rfl, ht.symm⟩

/-- How DECRYPT stops: out of the cipher's domain, or on an unwritten byte of WB[0 .. n-1]. -/
theorem execDecrypt_fault (n : BitVec 4) (br : BitVec 8) (s : State) (f : Fault)
    (hf : execDecrypt n br s = .fault f) :
    s.status.busy = true ∧ ((n.toNat < 2 ∧ f = .cipherDomain n.toNat)
      ∨ (2 ≤ n.toNat ∧ ∃ x, wbBase ≤ x ∧ x < wbBase + 4 * n.toNat ∧ s.mem.read? x = none ∧ f = .unwritten x)) := by
  unfold execDecrypt at hf
  by_cases h : s.status.busy = true
  · refine ⟨h, ?_⟩
    simp only [h, if_true, performDecrypt] at hf
    by_cases hn : n.toNat < 2
    · simp only [hn, if_true, Outcome.fault.injEq] at hf
      exact .inl ⟨hn, hf.symm⟩
    · simp only [hn, if_false] at hf
      cases hw : s.wbWords n.toNat with
      | error g =>
        simp only [hw, Outcome.fault.injEq] at hf
        subst hf
        exact .inr ⟨by omega, Memory.readWords_error _ _ _ _ hw⟩
      | ok ws => simp [hw] at hf
  · simp [h] at hf

theorem execDecrypt_not_refused (n : BitVec 4) (br : BitVec 8) (s : State) (q : Refusal) :
    execDecrypt n br s ≠ .refused q := by
  unfold execDecrypt performDecrypt
  split
  · split
    · simp
    · split <;> simp
  · simp

/-! ### The frames -/

/-- A frame reads the report, and emits the observations of its records. -/
theorem execFrameA5_ok (s : State) (r : List Byte) (h : s.report = .ok r) :
    execFrameA5 s = .next (s.emit (frameA5 s.config s.layout r)) := by
  simp [execFrameA5, h]

theorem execFrameA6_ok (s : State) (r : List Byte) (h : s.report = .ok r) :
    execFrameA6 s = .next (s.emit (frameA6 s.config s.layout r)) := by
  simp [execFrameA6, h]

theorem execFrameA5_error (s : State) (f : Fault) (h : s.report = .error f) : execFrameA5 s = .fault f := by
  simp [execFrameA5, h]

theorem execFrameA6_error (s : State) (f : Fault) (h : s.report = .error f) : execFrameA6 s = .fault f := by
  simp [execFrameA6, h]

/-! ### DECODE -/

/-- DECODE while idle: rejected or accepted. -/
theorem execDecode_idle (s : State) (h : s.status.busy = false) :
    execDecode s = .next (s.present decodeWord (checkDecode s.config)) := by
  simp [execDecode, h]

@[simp] theorem decodeProlog_config (r : List Byte) (s : State) : (decodeProlog r s).config = s.config := rfl
@[simp] theorem decodeProlog_layout (r : List Byte) (s : State) : (decodeProlog r s).layout = s.layout := rfl
@[simp] theorem decodeProlog_obsList (r : List Byte) (s : State) : (decodeProlog r s).obsList = [] := rfl

/-- The bytes of a report with a run of 60 bytes replaced. -/
theorem splice_getElem? (r u : List Byte) (w i : Nat) (hr : r.length = 64) (hu : u.length = 60) (hw : w ≤ 4) :
    (r.take w ++ u ++ r.drop (w + 60))[i]? = if w ≤ i ∧ i < w + 60 then u[i - w]? else r[i]? := by
  have el : (r.take w).length = w := by rw [List.length_take]; omega
  rw [List.append_assoc]
  by_cases h1 : i < w
  · rw [List.getElem?_append_left (by omega), List.getElem?_take_of_lt h1, if_neg (by omega)]
  · rw [List.getElem?_append_right (by omega), el]
    by_cases h2 : i < w + 60
    · rw [List.getElem?_append_left (by omega), if_pos (by omega)]
    · rw [List.getElem?_append_right (by omega), hu, List.getElem?_drop, if_neg (by omega)]
      congr 1; omega

theorem decodedReport_getElem? (c : ConfigReg) (r : List Byte) (i : Nat) (hr : r.length = 64)
    (hw : c.woffLegal = true) :
    (decodedReport c r)[i]?
      = if c.woff.toNat ≤ i ∧ i < c.woff.toNat + 60 then
          (unpackWords c.bo (decryptedWords c r))[i - c.woff.toNat]?
        else r[i]? :=
  splice_getElem? r _ _ i hr (length_unpacked c r hr hw) (c.woffLegal_iff.1 hw).2

theorem decodeProlog_mem (r : List Byte) (s : State) :
    (decodeProlog r s).mem
      = (s.mem.writeWords wbBase (decryptedWords s.config r)).writeBlock (rbBase + s.config.woff.toNat)
          (unpackWords s.config.bo (decryptedWords s.config r)) := rfl

/-- After the prolog RB holds the report with its crypt region decrypted (41_frame_decoder.md R123). -/
theorem decodeProlog_report (r : List Byte) (s : State) (h : s.report = .ok r) (hw : s.config.woffLegal = true) :
    (decodeProlog r s).report = .ok (decodedReport s.config r) := by
  obtain ⟨hlen, hbytes⟩ := (s.report_ok_iff r).1 h
  refine (State.report_ok_iff _ _).2 ⟨length_decodedReport _ r hlen hw, fun i hi => ?_⟩
  rw [decodedReport_getElem? _ r i hlen hw, State.rb?, decodeProlog_mem, Memory.read?_writeBlock,
    length_unpacked _ r hlen hw, Memory.read?_writeWords_of_outside _ _ _ _ (by simp only [wbBase, rbBase]; omega)]
  have e : rbBase + i - (rbBase + s.config.woff.toNat) = i - s.config.woff.toNat := by omega
  have c : (rbBase + s.config.woff.toNat ≤ rbBase + i ∧ rbBase + i < rbBase + s.config.woff.toNat + 60)
      ↔ (s.config.woff.toNat ≤ i ∧ i < s.config.woff.toNat + 60) := by omega
  have hb : s.mem.read? (rbBase + i) = r[i]? := hbytes i hi
  simp only [e, c, hb]

/-- The dispatch emits the observation list of the report (41_frame_decoder.md R124). -/
theorem dispatchFrame_prolog (r : List Byte) (s : State) (h : s.report = .ok r) (hw : s.config.woffLegal = true) :
    dispatchFrame (byteAt r 0) (decodeProlog r s)
      = .next ((decodeProlog r s).emit (decodedList s.config s.layout r)) := by
  have hr := decodeProlog_report r s h hw
  unfold dispatchFrame decodedList
  by_cases h5 : byteAt r 0 = tagDual
  · simp only [h5, if_true, execFrameA5_ok _ _ hr, decodeProlog_config, decodeProlog_layout]
  · by_cases h6 : byteAt r 0 = tagHmd
    · simp only [if_neg h5, if_pos h6, execFrameA6_ok _ _ hr, decodeProlog_config, decodeProlog_layout]
    · simp only [h5, h6, if_false, execFrameOther, State.emit, List.append_nil]

/-- DECODE while busy, on a written report with a legal WOFF. -/
theorem execDecode_busy (s : State) (r : List Byte) (hb : s.status.busy = true) (hw : s.config.woffLegal = true)
    (h : s.report = .ok r) :
    execDecode s
      = .next (decodeEpilog ((decodeProlog r s).emit (decodedList s.config s.layout r))) := by
  simp only [execDecode, hb, if_true, performDecode, hw, h, dispatchFrame_prolog r s h hw]

/-- What DECODE did, if it answered a next state while busy. -/
theorem execDecode_next (s t : State) (hb : s.status.busy = true) (ht : execDecode s = .next t) :
    s.config.woffLegal = true ∧ ∃ r, s.report = .ok r
      ∧ t = decodeEpilog ((decodeProlog r s).emit (decodedList s.config s.layout r)) := by
  by_cases hw : s.config.woffLegal = true
  · refine ⟨hw, ?_⟩
    cases hr : s.report with
    | error f => simp [execDecode, hb, performDecode, hw, hr] at ht
    | ok r =>
      rw [execDecode_busy s r hb hw hr, Outcome.next.injEq] at ht
      exact ⟨r, rfl, ht.symm⟩
  · simp [execDecode, hb, performDecode, hw] at ht

/-- How DECODE stops: with no crypt region, or on an unwritten byte of RB. -/
theorem execDecode_fault (s : State) (f : Fault) (hf : execDecode s = .fault f) :
    s.status.busy = true ∧ ((s.config.woffLegal = false ∧ f = .cryptRegion s.config.woff.toNat)
      ∨ (s.config.woffLegal = true ∧ ∃ x, x < 64 ∧ s.rb? x = none ∧ f = .unwritten x)) := by
  by_cases hb : s.status.busy = true
  · refine ⟨hb, ?_⟩
    by_cases hw : s.config.woffLegal = true
    · cases hr : s.report with
      | error g =>
        simp only [execDecode, hb, if_true, performDecode, hw, hr, Outcome.fault.injEq] at hf
        subst hf
        exact .inr ⟨hw, s.report_error g hr⟩
      | ok r => simp [execDecode_busy s r hb hw hr] at hf
    · simp only [execDecode, hb, if_true, performDecode, if_neg hw, Outcome.fault.injEq] at hf
      exact .inl ⟨by simpa using hw, hf.symm⟩
  · simp [execDecode, hb] at hf

theorem execDecode_not_refused (s : State) (q : Refusal) : execDecode s ≠ .refused q := by
  by_cases hb : s.status.busy = true
  · by_cases hw : s.config.woffLegal = true
    · cases hr : s.report with
      | error f => simp [execDecode, hb, performDecode, hw, hr]
      | ok r => simp [execDecode_busy s r hb hw hr]
    · simp [execDecode, hb, performDecode, hw]
  · simp [execDecode, hb]

/-! ### The bytes after a DECODE -/

/-- The buffers after a DECODE (41_frame_decoder.md R124): OBS stored over RB stored over WB. -/
theorem decode_result_mem (r : List Byte) (l : List Observation) (s : State) :
    (decodeEpilog ((decodeProlog r s).emit l)).mem
      = ((s.mem.writeWords wbBase (decryptedWords s.config r)).writeBlock (rbBase + s.config.woff.toNat)
          (unpackWords s.config.bo (decryptedWords s.config r))).writeWords obsBase (obsImage l) := by
  simp [decodeEpilog, decodeProlog]

/-- STATUS after a DECODE (42_commands.md R163, 41_frame_decoder.md R124). -/
theorem decode_result_status (r : List Byte) (l : List Observation) (s : State) :
    (decodeEpilog ((decodeProlog r s).emit l)).status
      = { s.status with busy := false, done := true, obsCount := BitVec.ofNat 5 l.length } := by
  simp [decodeEpilog, decodeProlog]

/-- The fields a DECODE leaves alone, LC and L aside. -/
theorem decode_result_frame (r : List Byte) (l : List Observation) (s : State) :
    let t := decodeEpilog ((decodeProlog r s).emit l)
    t.config = s.config ∧ t.ctrl = s.ctrl ∧ t.layout0 = s.layout0 ∧ t.layout1 = s.layout1 ∧ t.inputs = s.inputs
      ∧ t.response = s.response ∧ t.draws = s.draws ∧ t.lc = none ∧ t.obsList = [] := by
  simp [decodeEpilog, decodeProlog]

end Sys2Proof.Machine
end

