-- ==== Sys2Proof/Laws/PerInstr.lean ====
section
/-! SUPPORT. The family MatchesTableRow: the encoding of every well-formed instruction fits the bits spec/opcode_table.json
gives its row, and shows the row's match under the row's mask. -/

namespace Sys2Proof.Laws.MatchesTableRow

open Sys2Proof

/-- The mask of an instruction's row in spec/opcode_table.json. -/
def rowMask : Instr → Nat
  | .decrypt _ _ => 0xFFFF000F
  | .decode => 0xFFFFFFFF
  | .frameA5 => 0xFF
  | .frameA6 => 0xFF
  | .frameOther _ => 0x00

/-- The match of an instruction's row in spec/opcode_table.json. -/
def rowMatch : Instr → Nat
  | .decrypt _ _ => 0x00000001
  | .decode => 0x00000002
  | .frameA5 => 0xA5
  | .frameA6 => 0xA6
  | .frameOther _ => 0x00

/-- The encoding of `i` matches its row. -/
def Statement (i : Instr) : Prop :=
  i.wellFormed = true → encode i < 2 ^ i.bits ∧ encode i &&& rowMask i = rowMatch i

theorem decrypt (n : BitVec 4) (br : BitVec 8) : Statement (.decrypt n br) := by
  intro _
  refine ⟨(decryptWord n br).isLt, ?_⟩
  have h : decryptWord n br &&& 0xFFFF000F#32 = 0x00000001#32 := by
    apply BitVec.eq_of_getLsbD_eq
    intro i hi
    simp only [decryptWord, BitVec.getLsbD_and, BitVec.getLsbD_append]
    interval_cases i <;> simp
  have := congrArg BitVec.toNat h
  simpa [encode, rowMask, rowMatch, BitVec.toNat_and] using this

theorem decode : Statement .decode := by
  intro _; decide

theorem frameA5 : Statement .frameA5 := by
  intro _; decide

theorem frameA6 : Statement .frameA6 := by
  intro _; decide

theorem frameOther (tag : Byte) : Statement (.frameOther tag) := by
  intro _
  exact ⟨tag.isLt, by simp [encode, rowMask, rowMatch]⟩

end Sys2Proof.Laws.MatchesTableRow
end

