-- ==== Sys2Proof/Laws/Port.lean ====
section
/-! SUPPORT. Once for the host port and once for the step, everything they can do. -/

namespace Sys2Proof.Machine

open Host (Outcome)

/-- What a read of a buffer did, if it answered a next state. -/
theorem readBuffer_next (a : Nat) (s t : State) (h : readBuffer a s = .next t) :
    (s.status.busy = true ∧ t = s.drawRead)
      ∨ (s.status.busy = false ∧ ∃ w, s.mem.readWord a = .ok w ∧ t = s.setResponse (.data w)) := by
  unfold readBuffer at h
  by_cases hb : s.status.busy = true
  · simp only [hb, if_true, Outcome.next.injEq] at h
    exact .inl ⟨hb, h.symm⟩
  · simp only [if_neg hb] at h
    cases hw : s.mem.readWord a with
    | error f => simp [hw] at h
    | ok w =>
      simp only [hw, Outcome.next.injEq] at h
      exact .inr ⟨by simpa using hb, w, rfl, h.symm⟩

/-- What a host read did, if it answered a next state: an error response, a word, or a draw. -/
theorem hostRead_next (addr : BitVec 12) (width : BusWidth) (s t : State) (h : hostRead addr width s = .next t) :
    t = s.raiseBusError addr ∨ (∃ w, t = s.setResponse (.data w)) ∨ (s.status.busy = true ∧ t = s.drawRead) := by
  unfold hostRead at h
  have buffer : readBuffer addr.toNat s = .next t →
      t = s.raiseBusError addr ∨ (∃ w, t = s.setResponse (.data w)) ∨ (s.status.busy = true ∧ t = s.drawRead) := by
    intro hr
    rcases readBuffer_next _ _ _ hr with h1 | ⟨_, w, _, h1⟩
    · exact .inr (.inr h1)
    · exact .inr (.inl ⟨w, h1⟩)
  split at h
  · split at h
    case h_1 => exact buffer h
    case h_2 => exact .inr (.inl ⟨_, (Outcome.next.inj h).symm⟩)
    case h_3 => exact .inr (.inl ⟨_, (Outcome.next.inj h).symm⟩)
    case h_4 => exact .inr (.inl ⟨_, (Outcome.next.inj h).symm⟩)
    case h_5 => exact .inr (.inl ⟨_, (Outcome.next.inj h).symm⟩)
    case h_6 => exact buffer h
    case h_7 => exact buffer h
    case h_8 => exact .inl (Outcome.next.inj h).symm
  · exact .inl (Outcome.next.inj h).symm

/-- What a host read did, if it stopped: it met a byte of its word that nothing has written. -/
theorem hostRead_fault (addr : BitVec 12) (width : BusWidth) (s : State) (f : Fault)
    (h : hostRead addr width s = .fault f) : ∃ x, s.mem.read? x = none ∧ f = .unwritten x := by
  have buffer : readBuffer addr.toNat s = .fault f → ∃ x, s.mem.read? x = none ∧ f = .unwritten x := by
    intro hr
    unfold readBuffer at hr
    split at hr
    · simp at hr
    · cases hw : s.mem.readWord addr.toNat with
      | error g =>
        simp only [hw, Outcome.fault.injEq] at hr
        obtain ⟨x, _, _, h3, h4⟩ := Memory.readWord_error _ _ _ hw
        exact ⟨x, h3, by rw [← hr, h4]⟩
      | ok w => simp [hw] at hr
  unfold hostRead at h
  split at h
  · split at h
    case h_1 => exact buffer h
    case h_2 => simp at h
    case h_3 => simp at h
    case h_4 => simp at h
    case h_5 => simp at h
    case h_6 => exact buffer h
    case h_7 => exact buffer h
    case h_8 => simp at h
  · simp at h

theorem hostRead_not_refused (addr : BitVec 12) (width : BusWidth) (s : State) (q : Refusal) :
    hostRead addr width s ≠ .refused q := by
  have buffer : readBuffer addr.toNat s ≠ .refused q := by
    unfold readBuffer; split
    · simp
    · split <;> simp
  unfold hostRead
  split
  · split <;> first | exact buffer | simp
  · simp

/-- What a host write did: an error response, a dropped write, a word stored in RB or WB, a write of STATUS, CONFIG or
CTRL, or a command word taken to the acceptance rule. -/
theorem hostWrite_cases (addr : BitVec 12) (width : BusWidth) (v : Word) (s : State) :
    hostWrite addr width v s = .next (s.raiseBusError addr)
    ∨ (s.status.busy = true ∧ hostWrite addr width v s = .next s.dropWrite)
    ∨ (s.status.busy = false ∧ addr.toNat % 4 = 0 ∧ (addr.toNat < 0x40 ∨ (0x80 ≤ addr.toNat ∧ addr.toNat < 0xBC))
        ∧ hostWrite addr width v s
          = .next ((s.setMem (s.mem.writeWords addr.toNat [v])).setResponse .written))
    ∨ (s.status.busy = false
        ∧ hostWrite addr width v s = .next ((s.setConfig (ConfigReg.ofWord v)).setResponse .written))
    ∨ hostWrite addr width v s = .next ((s.acknowledge v).setResponse .written)
    ∨ hostWrite addr width v s = .next ((s.setCtrl (Ctrl.ofWord v)).setResponse .written)
    ∨ (s.status.busy = false ∧ decodeCmd v = none
        ∧ hostWrite addr width v s = .next ((s.setResponse .written).raiseCmdError .illegalCmd))
    ∨ (s.status.busy = false ∧ ∃ i, decodeCmd v = some i
        ∧ hostWrite addr width v s = exec i (s.setResponse .written)) := by
  by_cases hf : accessFits addr width = true
  · have ha : addr.toNat % 4 = 0 := by
      simp only [accessFits, Bool.and_eq_true, decide_eq_true_eq] at hf; exact hf.2
    have hbuf : (regionOf addr.toNat = .rb ∨ regionOf addr.toNat = .wb) →
        (addr.toNat < 0x40 ∨ (0x80 ≤ addr.toNat ∧ addr.toNat < 0xBC)) := by
      unfold regionOf
      intro h
      repeat' split at h
      all_goals first | omega | simp at h
    unfold hostWrite
    simp only [hf, if_true]
    cases hb : s.status.busy <;> cases hr : regionOf addr.toNat
    case false.rb => simp [writeBuffer, hb, ha, hbuf (.inl hr)]
    case false.wb => simp [writeBuffer, hb, ha, hbuf (.inr hr)]
    case false.cmd =>
      cases hd : decodeCmd v <;> simp [writeCmd, hb, hd]
    all_goals simp [writeBuffer, writeConfig, writeCmd, hb]
  · unfold hostWrite
    simp [hf]

/-- What a step did: the engine's turn, a reset or a host access. -/
theorem step_cases (s : State) :
    (s.inputs = [] ∧ step s = engineTurn s)
    ∨ (∃ rest, s.inputs = .engine :: rest ∧ step s = engineTurn (s.setInputs rest))
    ∨ (∃ rest, s.inputs = .reset :: rest ∧ step s = .next (s.setInputs rest).resetBlock)
    ∨ (∃ addr width rest, s.inputs = .access (.read addr width) :: rest
        ∧ step s = hostRead addr width (s.setInputs rest))
    ∨ (∃ addr width v rest, s.inputs = .access (.write addr width v) :: rest
        ∧ step s = hostWrite addr width v (s.setInputs rest)) := by
  cases hi : s.inputs with
  | nil => exact .inl ⟨rfl, by simp [step, hi]⟩
  | cons x rest =>
    cases x with
    | engine => exact .inr (.inl ⟨rest, rfl, by simp [step, hi]⟩)
    | reset => exact .inr (.inr (.inl ⟨rest, rfl, by simp [step, hi]⟩))
    | access a =>
      cases a with
      | read addr width => exact .inr (.inr (.inr (.inl ⟨addr, width, rest, rfl, by simp [step, hi, hostAccess]⟩)))
      | write addr width v =>
        exact .inr (.inr (.inr (.inr ⟨addr, width, v, rest, rfl, by simp [step, hi, hostAccess]⟩)))

/-- A command word decodes to one of the two commands (30_encoding.md R83). -/
theorem decodeCmd_cases (cmd : Word) (i : Instr) (h : decodeCmd cmd = some i) :
    (∃ n br, i = .decrypt n br) ∨ i = .decode := by
  unfold decodeCmd at h
  split at h
  · exact .inl ⟨_, _, (Option.some.inj h).symm⟩
  · split at h
    · exact .inr (Option.some.inj h).symm
    · simp at h

/-- What the engine's turn did, if it answered a next state: nothing while idle; while busy the latched DECRYPT or the
latched DECODE. -/
theorem engineTurn_next (s t : State) (h : engineTurn s = .next t) :
    (s.status.busy = false ∧ t = s)
    ∨ (s.status.busy = true ∧ ∃ cmd n br ws, s.lc = some cmd ∧ decodeCmd cmd = some (.decrypt n br) ∧ 2 ≤ n.toNat
        ∧ s.wbWords n.toNat = .ok ws
        ∧ t = (s.setMem (s.mem.writeWords wbBase (xxteaDecrypt n.toNat br.toNat ws))).complete)
    ∨ (s.status.busy = true ∧ ∃ cmd r, s.lc = some cmd ∧ decodeCmd cmd = some .decode ∧ s.config.woffLegal = true
        ∧ s.report = .ok r ∧ t = decodeEpilog ((decodeProlog r s).emit (decodedList s.config s.layout r))) := by
  unfold engineTurn at h
  split at h
  · rename_i hb
    unfold engineStep at h
    split at h
    · simp at h
    · rename_i cmd hl
      split at h
      · simp at h
      · rename_i i hd
        rcases decodeCmd_cases cmd i hd with ⟨n, br, rfl⟩ | rfl
        · obtain ⟨h1, ws, h2, h3⟩ := execDecrypt_next n br s t hb h
          exact .inr (.inl ⟨hb, cmd, n, br, ws, hl, hd, h1, h2, h3⟩)
        · obtain ⟨h1, r, h2, h3⟩ := execDecode_next s t hb h
          exact .inr (.inr ⟨hb, cmd, r, hl, hd, h1, h2, h3⟩)
  · rename_i hb
    exact .inl ⟨by simpa using hb, (Outcome.next.inj h).symm⟩

end Sys2Proof.Machine
end

