-- ==== Sys2Proof/Laws/Safety.lean ====
section
/-! SUPPORT. What a store keeps of a lawful memory: bytes inside the buffers, and words written whole. -/

namespace Sys2Proof.Machine

/-- A store inside the buffers keeps every cell inside them. -/
theorem Memory.writeBlock_inBuffers (m : Memory) (a : Nat) (bs : List Byte) (h : ∀ c ∈ m, inBuffers c.1)
    (hb : ∀ x, a ≤ x → x < a + bs.length → inBuffers x) : ∀ c ∈ m.writeBlock a bs, inBuffers c.1 := by
  intro c hc
  rcases Memory.mem_writeBlock _ _ _ _ hc with h1 | h1
  · exact h c h1
  · exact hb _ h1.1 h1.2

/-- A store of whole words at a word's address keeps words whole. -/
theorem Memory.writeWords_wholeWords (m : Memory) (a : Nat) (ws : List Word) (h4 : a % 4 = 0) (h : m.wholeWords) :
    (m.writeWords a ws).wholeWords := by
  intro x y hxy
  unfold Memory.writeWords
  rw [Memory.read?_writeBlock, Memory.read?_writeBlock, length_flatMap_wordBytes]
  by_cases hx : a ≤ x ∧ x < a + 4 * ws.length
  · have hy : a ≤ y ∧ y < a + 4 * ws.length := by omega
    rw [if_pos hx, if_pos hy, List.getElem?_eq_getElem (by rw [length_flatMap_wordBytes]; omega),
      List.getElem?_eq_getElem (by rw [length_flatMap_wordBytes]; omega)]
    rfl
  · rw [if_neg hx, if_neg (by omega)]
    exact h x y hxy

/-- A store over written bytes only, whatever its address, keeps words whole. -/
theorem Memory.writeBlock_wholeWords (m : Memory) (a : Nat) (bs : List Byte) (h : m.wholeWords)
    (hw : ∀ i, i < bs.length → (m.read? (a + i)).isSome) : (m.writeBlock a bs).wholeWords := by
  have e : ∀ x, ((m.writeBlock a bs).read? x).isSome = (m.read? x).isSome := by
    intro x
    rw [Memory.read?_writeBlock]
    split
    · rename_i hx
      have hs := hw (x - a) (by omega)
      rw [show a + (x - a) = x by omega] at hs
      rw [List.getElem?_eq_getElem (by omega), hs]
      rfl
    · rfl
  intro x y hxy
  rw [e, e]
  exact h x y hxy

/-- Which bytes of an empty memory a store of words lists. -/
theorem Memory.isSome_writeWords_nil (a : Nat) (ws : List Word) (x : Nat) :
    ((Memory.writeWords [] a ws).read? x).isSome = decide (a ≤ x ∧ x < a + 4 * ws.length) := by
  unfold Memory.writeWords
  rw [Memory.read?_writeBlock, length_flatMap_wordBytes]
  by_cases hx : a ≤ x ∧ x < a + 4 * ws.length
  · rw [if_pos hx, List.getElem?_eq_getElem (by rw [length_flatMap_wordBytes]; omega), decide_eq_true hx]
    rfl
  · rw [if_neg hx, decide_eq_false hx]
    rfl

end Sys2Proof.Machine
end

