-- ==== Sys2Proof/Tests/Slice0.lean ====
section
/-! SUPPORT. Tests: what WellFormed refuses, words written out from the spec's encodings, one step of each instruction on
a vector of 95_test_vectors.md, and for each statement with hypotheses a concrete case that meets them (named
witness_...). Expected values are the spec's; each test names its vector or rule. -/

open Sys2Proof Sys2Proof.Machine

/-! ### Small states -/

/-- The illustrative layout LX of 95_test_vectors.md section 4. -/
def testTable : LayoutTable :=
  { lC := 21, cPos := 2, cQuat := 8, cBtn := 16, cTx := 17, cTy := 18, cBat := 19, cTrig := 20,
    hHome := 2, hPos := 8, hQuat := 14, bVal := 2 }

/-- LX is admitted. -/
theorem test_layout_lx_admitted : testTable.admitted = true := by decide

def testLayout : Layout := { table := testTable, ok := test_layout_lx_admitted }

/-- An idle block with both layout tables LX. -/
def idleWith (mem : Memory) (config : Word) (inputs : List Input) : State :=
  { State.reset with mem := mem, config := ConfigReg.ofWord config, layout0 := testLayout, layout1 := testLayout,
                     inputs := inputs }

/-- The same block with a command latched. -/
def busyWith (mem : Memory) (config cmd : Word) (inputs : List Input) : State :=
  { idleWith mem config inputs with status := { Status.reset with busy := true }, lc := some cmd }

def hostWr (a : BitVec 12) (v : Word) : Input := .access (.write a .w32 v)
def hostRd (a : BitVec 12) : Input := .access (.read a .w32)

/-- The step answered a next state of which `p` holds. -/
def answers (o : Host.Outcome State Fault Refusal) (p : State → Bool) : Bool :=
  match o with
  | .next t => p t
  | .fault _ => false
  | .refused _ => false

theorem answers_next (o : Host.Outcome State Fault Refusal) (p : State → Bool) (h : answers o p = true) :
    ∃ t, o = .next t ∧ p t = true := by
  cases o with
  | next t => exact ⟨t, rfl, h⟩
  | fault f => simp [answers] at h
  | refused q => simp [answers] at h

/-- The words of a run of memory, empty if one is unwritten. -/
def wordsAt (s : State) (a n : Nat) : List Word :=
  match s.mem.readWords a n with
  | .ok ws => ws
  | .error _ => []

def reportOf (s : State) : List Byte :=
  match s.report with
  | .ok r => r
  | .error _ => []

def cfgA : Word := 0x80000012#32

/-- CFG_B: BO = 1. -/
def cfgB : Word := 0x800000C3#32

/-- CONFIG A with LSEL = 1. -/
def cfgA1 : Word := 0x80000212#32

/-- V-F1, the report in RB before DECODE, as LOADRB writes it. -/
def reportF1 : List Word :=
  [0x69AED6A5#32, 0xE71715AA#32, 0xD2F03737#32, 0x19F2C8C9#32, 0xC1B71062#32, 0xC9B403A4#32, 0x102C98E2#32,
   0x4CF32D87#32] ++
  [0x3E8767F6#32, 0x294D6871#32, 0xE11EA9D1#32, 0xFBFDFB8C#32, 0x9A5EEE46#32, 0xBE46CBFD#32, 0x53AA5B18#32,
   0x00000060#32]

/-- V-F2, the plaintext of V-F1 packed least significant byte first. -/
def reportF2 : List Word :=
  [0x973589A5#32, 0xB4726760#32, 0x6E2F5A24#32, 0x0DC344F2#32, 0x86E1B213#32, 0x2EDD300B#32, 0x4D8D9E9E#32,
   0x984235E4#32] ++
  [0xF56F1717#32, 0xEF3F45A8#32, 0xC05E9FB6#32, 0xB9D7C0F7#32, 0xDF724C58#32, 0xF4BE5194#32, 0x6413EB2D#32,
   0x000000A8#32]

/-- V-F5, both controller records valid. -/
def reportF5 : List Word :=
  [0x2BB43FA5#32, 0x3C706AF6#32, 0x183C9CFE#32, 0x554C02D5#32, 0x0C62092F#32, 0xF250D246#32, 0x6A0DE1A4#32,
   0x59C42C5B#32] ++
  [0xFE21290D#32, 0x7D23B623#32, 0xF4CD779B#32, 0x7D5AF8E3#32, 0x972EC9CE#32, 0xEB0B7946#32, 0x181462A7#32,
   0x0000009E#32]

/-- V-F3, the headset and base-station frame. -/
def reportF3 : List Word :=
  [0x4D52DDA6#32, 0xDDC0326E#32, 0x677E1DC5#32, 0x1AD6397C#32, 0x57456336#32, 0x52D885A7#32, 0x00E4A5E9#32,
   0x5E643AAB#32] ++
  [0xE3E2F0B0#32, 0x61F6949D#32, 0x9EEE6DF7#32, 0x77A34594#32, 0x605D8B8C#32, 0xAEFB1BF9#32, 0x6FF4B5C0#32,
   0x00000017#32]

/-- V-F4, an unrecognised tag. -/
def reportF4 : List Word :=
  [0xF2C1D600#32, 0x21D1D36E#32, 0xBAC2814C#32, 0x362F5533#32, 0xBE2932FD#32, 0xC12383A4#32, 0xE8D042E3#32,
   0xE1597E23#32] ++
  [0xB6D0FC2C#32, 0xA9C25632#32, 0x7CAFFF24#32, 0x0031DC74#32, 0x06CD1694#32, 0x1D4D8C5B#32, 0x5FCDFE61#32,
   0x000000DF#32]

/-- RB loaded with sixteen bus words. -/
def rbWith (ws : List Word) : Memory := Memory.writeWords [] rbBase ws

/-- WB loaded from WB[0] on. -/
def wbWith (ws : List Word) : Memory := Memory.writeWords [] wbBase ws

/-- A block about to perform a DECODE of a report under a CONFIG. -/
def decoding (report : List Word) (config : Word) : State := busyWith (rbWith report) config 2#32 []

/-- The same with LX as the table that LSEL selects and another admitted table as the one it does not. -/
def decodingOneLx (report : List Word) (config : Word) : State :=
  let s := decoding report config
  if s.config.lsel then { s with layout0 := {} } else { s with layout1 := {} }

/-- The DECRYPT of V-C10, latched: `CMD.DECRYPT 2, 1`. -/
def decrypting : State := busyWith (wbWith [0x7DB21788#32, 0x2B3D1004#32]) 0#32 0x121#32 []

/-- A full RB (V-F3) and a full WB. -/
def fullMem : Memory := Memory.writeWords (rbWith reportF3) wbBase (List.replicate 15 7#32)

/-! ### WellFormed smoke: each check refuses an ill-formed term -/

theorem test_frameOther_a5_ill_formed : (Instr.frameOther 0xA5#8).wellFormed = false := by decide
theorem test_frameOther_a6_ill_formed : (Instr.frameOther 0xA6#8).wellFormed = false := by decide

/-- 30_encoding.md R88 clause 1. -/
theorem test_layout_length_refused :
    LayoutTable.admitted { testTable with lC := 20 } = false ∧ LayoutTable.admitted { testTable with lC := 64 } = false
    := by decide

/-- R88 clause 2, lower bounds. -/
theorem test_layout_controller_low_refused :
    [{ testTable with cPos := 1 }, { testTable with cQuat := 1 }, { testTable with cBtn := 1 },
     { testTable with cTx := 1 }, { testTable with cTy := 1 }, { testTable with cBat := 1 },
     { testTable with cTrig := 1 }].all (fun t => !t.admitted) = true := by decide

/-- R88 clause 2, upper bounds: one past the last fitting offset. -/
theorem test_layout_controller_high_refused :
    [{ testTable with cPos := 16 }, { testTable with cQuat := 14 }, { testTable with cBtn := 21 },
     { testTable with cTx := 21 }, { testTable with cTy := 21 }, { testTable with cBat := 21 },
     { testTable with cTrig := 21 }].all (fun t => !t.admitted) = true := by decide

/-- R88 clauses 3 and 4, both bounds. -/
theorem test_layout_headset_and_base_refused :
    [{ testTable with hHome := 1 }, { testTable with hPos := 1 }, { testTable with hQuat := 1 },
     { testTable with bVal := 1 }, { testTable with hHome := 38 }, { testTable with hPos := 38 },
     { testTable with hQuat := 36 }, { testTable with bVal := 10 }].all (fun t => !t.admitted) = true := by decide

/-- R88 at its upper bounds is admitted. -/
theorem test_layout_extremes_admitted :
    LayoutTable.admitted { lC := 63, cPos := 57, cQuat := 55, cBtn := 62, cTx := 62, cTy := 62, cBat := 62,
                           cTrig := 62, hHome := 37, hPos := 37, hQuat := 35, bVal := 9 } = true := by decide

/-! ### Words written out bit by bit from 30_encoding.md R80 and R85 -/

/-- 31:16 zero, BR = 1, N = 2, OP = 1. -/
theorem test_decode_decrypt :
    decodeTableWord 32 0b0000000000000000_00000001_0010_0001 = some (.decrypt 2#4 1#8) := by decide
theorem test_decode_decode :
    decodeTableWord 32 0b0000000000000000_00000000_0000_0010 = some .decode := by decide
theorem test_decode_frameA5 : decodeTableWord 8 0b1010_0101 = some .frameA5 := by decide
theorem test_decode_frameA6 : decodeTableWord 8 0b1010_0110 = some .frameA6 := by decide
theorem test_decode_frameOther : decodeTableWord 8 0b0111_1111 = some (.frameOther 0x7F#8) := by decide

/-- 30_encoding.md R84: other OP codes, and each lowest and highest reserved bit. -/
theorem test_decode_illegal :
    [0x00000000, 0x00000003, 0x0000000F, 0x00010011, 0x80000001, 0x00000012, 0x80000002].all
      (fun w => decide (decodeTableWord 32 w = none)) = true := by decide

/-! ### One step of each instruction -/

/-- V-C10: `CMD.DECRYPT 2, 1` of 7DB21788 2B3D1004 gives 1, 2 and STATUS = 2. -/
theorem test_decrypt_vc10 :
    answers (step decrypting) (fun t => wordsAt t 0x80 2 == [1#32, 2#32] && t.status.word == 2#32 && t.lc == none)
      = true := by decide +kernel

/-- V-E1: DECRYPT with n = 1 is rejected with N_TOO_SMALL. -/
theorem test_decrypt_rejected :
    answers (step (idleWith [] 0#32 [hostWr 0x040#12 0x11#32]))
      (fun t => t.status.word == 0x22#32 && t.response == .written && t.lc == none) = true := by decide +kernel

/-- V-F1: STATUS, two words of WB and the first entry of OBS. -/
theorem test_decode_vf1 :
    answers (step (decoding reportF1 cfgA)) (fun t =>
      t.status.word == 0x00000B02#32 && wordsAt t 0x80 2 == [0x0201000A#32, 0xFFF68000#32]
        && wordsAt t 0x100 8 == [0x00010001#32, 0x0000000A#32, 0xFFFFFFF6#32, 0xFFFF8000#32, 0x00004000#32,
             0x00000001#32, 0x00000003#32, 0xFFFFFFFE#32]) = true := by decide +kernel

/-- V-E5: DECODE with WOFF = 5 is rejected with NOT_CONFIGURED. -/
theorem test_decode_rejected :
    answers (step (idleWith [] 0x8000000A#32 [hostWr 0x040#12 2#32]))
      (fun t => t.status.word == 0x32#32 && t.lc == none) = true := by decide +kernel

/-- V-F5: both controller records; the POSE header of controller 1 (entry 11) and its last button (entry 17). -/
theorem test_frameA5_vf5 :
    answers (step (decoding reportF5 cfgA)) (fun t =>
      t.status.word == 0x00001602#32 && wordsAt t (0x100 + 32 * 11) 1 == [0x00010011#32]
        && wordsAt t (0x100 + 32 * 17) 2 == [0x00000B12#32, 1#32]) = true := by decide +kernel

/-- V-F2, BO = 1: two words of WB, the POSE entry and the touch-pad X entry of controller 0. -/
theorem test_frameA5_vf2 :
    answers (step (decodingOneLx reportF2 cfgB)) (fun t =>
      t.status.word == 0x00000B02#32 && wordsAt t 0x80 2 == [0x0A000102#32, 0x0080F6FF#32]
        && wordsAt t 0x100 8 == [0x00000001#32, 0x0000000A#32, 0xFFFFFFF6#32, 0x00008000#32, 0x00004000#32,
             0x00000001#32, 0x00000003#32, 0xFFFFFFFE#32]
        && wordsAt t 0x1E0 4 == [0x00000003#32, 0xFF#32, 0xFF#32, 0#32]) = true := by decide +kernel

/-- V-F3: HOME, POSE and BASE_RAW, under LSEL = 0 and, with LX in LAYOUT[1] only, under LSEL = 1. -/
theorem test_frameA6_vf3 :
    [cfgA, cfgA1].all (fun cfg => answers (step (decodingOneLx reportF3 cfg)) (fun t =>
      t.status.word == 0x00000302#32 && wordsAt t 0x100 4 == [0x00000024#32, 1#32, 2#32, 3#32]
        && wordsAt t 0x120 8 == [0x00010021#32, 0x00002710#32, 0xFFFFD8F0#32, 0xFFFFFFFF#32, 0x00007FFF#32,
             0xFFFF8000#32, 0#32, 0x00008000#32]
        && wordsAt t 0x140 4 == [0x00000433#32, 0xC8#32, 1#32, 0xC8#32])) = true := by decide +kernel

/-- V-F4: an unrecognised tag decrypts RB and emits nothing. -/
theorem test_frameOther_vf4 :
    answers (step (decoding reportF4 cfgA)) (fun t =>
      t.status.word == 2#32 && reportOf t == List.replicate 64 0#8
        && wordsAt t 0x100 2 == [0#32, 0#32] && wordsAt t 0x3BC 1 == [0#32]) = true := by decide +kernel

/-! ### The cipher and the conversions -/

/-- V-C2 and V-C3. -/
theorem test_mx :
    mx 0x12345678#32 0x9ABCDEF0#32 0x9E3779B9#32 2 1 = 0x1B62C684#32
    ∧ mx 0xFFFFFFFF#32 0xFFFFFFFF#32 0xFFFFFFFF#32 3 3 = 0xA0A433BC#32 := by decide

/-- V-C12, decryption and its inverse. -/
theorem test_cipher_vc12 :
    xxteaDecrypt 3 1 [0xE2396B55#32, 0x36BAB8B1#32, 0x4817D7F9#32] = [0xDEADBEEF#32, 0x00C0FFEE#32, 0x12345678#32]
    ∧ xxteaEncrypt 3 1 [0xDEADBEEF#32, 0x00C0FFEE#32, 0x12345678#32]
        = [0xE2396B55#32, 0x36BAB8B1#32, 0x4817D7F9#32] := by decide +kernel

/-- V-V9: the quaternion corner. -/
theorem test_quat_vv9 :
    quatAt [0x7F#8, 0xFF#8, 0x80#8, 0#8, 0x80#8, 0#8, 0#8, 0#8] 0
      = { w := 32767, x := -32768, y := 0, z := 32768 } := by decide

/-- V-V13 and V-V14: button masks FF of controller 1 and C0 of controller 0. -/
theorem test_buttons_vv13_vv14 :
    (buttons 0xFF#8 1).map Observation.encode
        = (List.range 6).map (fun k => (Observation.button .controller1 (6 + k) true).encode)
    ∧ (buttons 0xC0#8 0).map Observation.encode
        = (List.range 6).map (fun k => (Observation.button .controller0 k false).encode) := by decide

/-! ### Witnesses: encodings and the step -/

theorem witness_DecodeOfEncodeReturnsInstruction :
    [Instr.decrypt 0#4 0#8, .decrypt 15#4 255#8, .decode, .frameA5, .frameA6, .frameOther 0#8, .frameOther 255#8].all
      Instr.wellFormed = true := by decide

theorem witness_EngineTurnRunsLatchedInstruction :
    (let s := decrypting
     s.status.busy = true ∧ s.lc = some 0x121#32 ∧ decodeCmd 0x121#32 = some (.decrypt 2#4 1#8) ∧ s.inputs = [])
    ∧ (let s := busyWith [] cfgA 2#32 [.engine]
       s.status.busy = true ∧ s.lc = some 2#32 ∧ decodeCmd 2#32 = some .decode ∧ s.inputs = [.engine]) := by decide

theorem witness_IdleCommandWriteRunsDecodedInstruction :
    let s := idleWith [] 0#32 [hostWr 0x040#12 0xFFF1#32]
    s.status.busy = false ∧ s.inputs = .access (.write 0x040#12 .w32 0xFFF1#32) :: []
      ∧ decodeCmd 0xFFF1#32 = some (.decrypt 15#4 255#8) := by decide

theorem witness_DecodeRunsFrameOfReportTag :
    let s := decoding reportF1 cfgA
    s.status.busy = true ∧ 1 ≤ s.config.woff.toNat ∧ s.config.woff.toNat ≤ 4
      ∧ s.report = .ok (reportF1.flatMap wordBytes) := by decide +kernel

/-! ### Witnesses: accepting and rejecting -/

/-- One case of each clause: busy; illegal; n = 0 and n = 1; VALID = 0, WOFF = 0 and WOFF = 5; accepted at n = 2, n = 15,
WOFF = 1 and WOFF = 4. -/
theorem witness_CommandWriteDropsRejectsOrAccepts :
    (busyWith [] 0#32 2#32 [hostWr 0x040#12 2#32]).status.busy = true
    ∧ (idleWith [] 0#32 [hostWr 0x040#12 0#32]).status.busy = false ∧ decodeCmd 0#32 = none
    ∧ decodeCmd 0x01#32 = some (.decrypt 0#4 0#8) ∧ (0#4).toNat < 2
    ∧ decodeCmd 0xFF11#32 = some (.decrypt 1#4 255#8) ∧ (1#4).toNat < 2
    ∧ decodeCmd 2#32 = some .decode
    ∧ (idleWith [] 0x00000002#32 []).config.valid = false
    ∧ ¬ (1 ≤ (idleWith [] 0x80000000#32 []).config.woff.toNat)
    ∧ ¬ ((idleWith [] 0x8000000A#32 []).config.woff.toNat ≤ 4)
    ∧ decodeCmd 0x21#32 = some (.decrypt 2#4 0#8) ∧ 2 ≤ (2#4).toNat
    ∧ decodeCmd 0xF1#32 = some (.decrypt 15#4 0#8) ∧ 2 ≤ (15#4).toNat
    ∧ (let c := (idleWith [] 0x80000002#32 []).config
       c.valid = true ∧ 1 ≤ c.woff.toNat ∧ c.woff.toNat ≤ 4)
    ∧ (let c := (idleWith [] 0x80000008#32 []).config
       c.valid = true ∧ 1 ≤ c.woff.toNat ∧ c.woff.toNat ≤ 4) := by decide

theorem witness_AcceptedCommandIsLatched :
    (let s := idleWith [] 0#32 [hostWr 0x040#12 0x21#32]
     s.inputs = .access (.write 0x040#12 .w32 0x21#32) :: [] ∧ s.status.busy = false
       ∧ commandCheck s.config (decodeCmd 0x21#32) = none)
    ∧ (let s := idleWith [] 0x80000008#32 [hostWr 0x040#12 2#32]
       s.inputs = .access (.write 0x040#12 .w32 2#32) :: [] ∧ s.status.busy = false
         ∧ commandCheck s.config (decodeCmd 2#32) = none) := by decide

/-- One case of each code. -/
theorem witness_RejectedCommandChangesOnlyDoneAndErr :
    [(0x03#32, 0#32, ErrCode.illegalCmd), (0x11#32, 0#32, ErrCode.nTooSmall),
     (2#32, 0x8000000A#32, ErrCode.notConfigured)].all (fun x =>
      let s := { idleWith [] x.2.1 [hostWr 0x040#12 x.1] with ctrl := { ie := true } }
      decide (s.inputs = .access (.write 0x040#12 .w32 x.1) :: [] ∧ s.status.busy = false
        ∧ commandCheck s.config (decodeCmd x.1) = some x.2.2 ∧ s.ctrl.ie = true)) = true := by decide

/-! ### Witnesses: the cipher -/

theorem witness_RoundCountWithinBounds : (2 ≤ 2 ∧ 2 ≤ 15 ∧ 0 ≤ 255) ∧ (2 ≤ 15 ∧ 15 ≤ 15 ∧ 255 ≤ 255) := by decide

/-- n = 2, whose only indices are p = 0 and p = n - 1, and n = 15, with indices between. -/
theorem witness_RoundDataFlow :
    (2 ≤ 2 ∧ (CipherState.mk 0#32 [0#32, 1#32]).words.length = 2 ∧ 0 < 2 ∧ 2 - 1 < 2)
    ∧ (2 ≤ 15 ∧ (CipherState.mk delta (List.replicate 15 0#32)).words.length = 15 ∧ 7 < 15) := by decide

/-- V-C14, round 1: the words and the sum after it. -/
theorem test_round_vc14 :
    cipherRound 2 { sum := 0xAFD9D683#32, words := [0x7DB21788#32, 0x2B3D1004#32] }
      = { sum := 0x11A25CCA#32, words := [0x591F15B2#32, 0xC6BCE810#32] } := by decide +kernel

theorem witness_DecryptUndoesEncrypt : 2 ≤ 2 ∧ [0xDEADBEEF#32, 0#32].length = 2 := by decide
theorem witness_EncryptUndoesDecrypt : 2 ≤ 15 ∧ (List.replicate 15 0xFFFFFFFF#32).length = 15 := by decide

/-! ### Witnesses: DECRYPT and DECODE -/

/-- n = 2 and n = 15. -/
theorem witness_DecryptCompletesOnWrittenWords :
    (decrypting.status.busy = true ∧ 2 ≤ (2#4).toNat ∧ [0x7DB21788#32, 0x2B3D1004#32].length = (2#4).toNat
      ∧ ∀ (i : Nat) (h : i < [0x7DB21788#32, 0x2B3D1004#32].length),
          decrypting.wb i = .ok [0x7DB21788#32, 0x2B3D1004#32][i])
    ∧ (let s := busyWith fullMem 0#32 0xF1#32 []
       s.status.busy = true ∧ 2 ≤ (15#4).toNat ∧ (List.replicate 15 7#32).length = (15#4).toNat
         ∧ ∀ (i : Nat) (h : i < (List.replicate 15 7#32).length), s.wb i = .ok (List.replicate 15 7#32)[i]) := by
  decide +kernel

/-- WOFF = 1 and WOFF = 4, BO = 0 and BO = 1, LSEL = 0 and LSEL = 1 with the two tables different. -/
theorem witness_DecodeCompletesOnWrittenReport (s : State)
    (hs : s = decoding reportF5 cfgA ∨ s = decoding reportF3 0x80000008#32 ∨ s = decodingOneLx reportF2 cfgB
      ∨ s = decodingOneLx reportF3 cfgA1) :
    s.status.busy = true ∧ 1 ≤ s.config.woff.toNat ∧ s.config.woff.toNat ≤ 4
      ∧ (reportOf s).length = 64 ∧ ∀ i, i < 64 → s.rb? i = (reportOf s)[i]? := by
  rcases hs with rfl | rfl | rfl | rfl <;>
    exact ⟨rfl, by decide, by decide, (State.report_ok_iff _ _).1 (by decide +kernel)⟩

/-- BO = 0 and BO = 1. -/
theorem witness_BytesAndWordsAgreeAfterDecode (s : State) (bo : Bool)
    (hs : s = decoding reportF1 cfgA ∧ bo = false ∨ s = decoding reportF2 cfgB ∧ bo = true) :
    s.status.busy = true ∧ s.config.bo = bo ∧ ∃ t, exec .decode s = .next t := by
  rcases hs with ⟨rfl, rfl⟩ | ⟨rfl, rfl⟩ <;>
    exact ⟨by decide, by decide, (answers_next _ (fun _ => true) (by decide +kernel)).imp fun _ h => h.1⟩

/-- One word's bytes; a word of a list and a byte of it, the last of each. -/
theorem witness_PackAndUnpackAreInverse : [1#8, 2#8, 3#8, 4#8].length = 4 * 1 ∧ 0 < 1
    ∧ 1 < [1#32, 2#32].length ∧ 3 < 4 := by decide

/-- Tag 0xA5 with two valid records, 0xA6 with both valid, and another tag. -/
theorem witness_ObservationCountsOfFrames :
    [(decoding reportF5 cfgA, 0xA5#8, 22), (decoding reportF3 cfgA, 0xA6#8, 3), (decoding reportF4 cfgA, 0#8, 0)].all
      (fun x => decide (x.1.status.busy = true) && decide (x.1.report = .ok (reportOf x.1))
        && decide (byteAt (reportOf x.1) 0 = x.2.1)
        && answers (exec .decode x.1) (fun t => decide (t.status.obsCount.toNat = x.2.2))) = true := by decide +kernel

theorem witness_UnknownTagDecryptsAndEmitsNothing :
    (0xA4#8 : Byte) ≠ 0xA5#8 ∧ (0xA7#8 : Byte) ≠ 0xA6#8
    ∧ (let s := decoding reportF4 cfgA
       s.status.busy = true ∧ 1 ≤ s.config.woff.toNat ∧ s.config.woff.toNat ≤ 4
         ∧ s.report = .ok (reportF4.flatMap wordBytes)
         ∧ byteAt (reportF4.flatMap wordBytes) 0 ≠ 0xA5#8 ∧ byteAt (reportF4.flatMap wordBytes) 0 ≠ 0xA6#8) := by
  decide +kernel

/-- Two states that differ in WB, OVR, the pending events and the table that LSEL does not select, under both settings
of LSEL. -/
theorem witness_DecodeDependsOnlyOnReportAndConfig (cfg : Word) (h : cfg = cfgA ∨ cfg = cfgA1) :
    let s₁ := decodingOneLx reportF3 cfg
    let s₂ := { busyWith fullMem cfg 2#32 [.engine] with status := { Status.reset with busy := true, ovr := true } }
    (s₁.status.busy = true ∧ s₂.status.busy = true ∧ s₁.config = s₂.config)
      ∧ ((s₁.config.lsel = false → s₁.layout0 = s₂.layout0) ∧ (s₁.config.lsel = true → s₁.layout1 = s₂.layout1)
          ∧ (s₁.layout0, s₁.layout1) ≠ (s₂.layout0, s₂.layout1))
      ∧ (∀ i, i < 64 → s₁.rb? i = s₂.rb? i)
      ∧ answers (exec .decode s₁) (fun _ => true) = true ∧ answers (exec .decode s₂) (fun _ => true) = true := by
  rcases h with rfl | rfl <;> decide +kernel

/-! ### Witnesses: frames, records, conversions -/

theorem witness_FramesEmitTheirRecords :
    (decoding reportF1 cfgA).report = .ok (reportF1.flatMap wordBytes)
    ∧ (decoding reportF3 cfgA).report = .ok (reportF3.flatMap wordBytes) := by decide +kernel

theorem witness_RecordsEmitTheirFieldsInOrder :
    Source.controller0 = (if (0 : Fin 2) = 0 then Source.controller0 else Source.controller1)
    ∧ Source.controller1 = (if (1 : Fin 2) = 0 then Source.controller0 else Source.controller1) := by decide

/-- V-V26, V-V27 and V-V28. -/
theorem witness_ControllerRecordEmitsElevenOrNone :
    versionOk [0xA5#8, 2#8, 1#8] 1 = true ∧ versionOk [0xA5#8, 1#8, 2#8] 1 = false
    ∧ versionOk [0xA5#8, 2#8, 2#8] 1 = false := by decide

theorem witness_VersionMismatchSkipsOnlyItsRecord :
    [1, 64 - testTable.lC, 0x15, 0x36].all (fun b => !versionOk (List.replicate 64 0#8) b) = true := by decide

theorem witness_FieldReadsStayInsideReport : (List.replicate 64 0#8).length = 64 := by decide

/-- Both settings of ZU on FF FF. -/
theorem witness_PositionConversion :
    (false = false ∧ true = true) ∧ (posAt false (List.replicate 6 0xFF#8) 0).z = -1
    ∧ (posAt true (List.replicate 6 0xFF#8) 0).z = 65535 := by decide

/-- The bytes 80 00 of j. -/
theorem witness_QuaternionRelabelling :
    (256 * ((byteAt [0#8, 0#8, 0#8, 0#8, 0x80#8, 0#8, 0#8, 0#8] 4).toNat : Int)
      + ((byteAt [0#8, 0#8, 0#8, 0#8, 0x80#8, 0#8, 0#8, 0#8] 5).toNat : Int)) = 32768 := by decide

/-- At both ends of the range of tc32. -/
theorem witness_PoseAndHomeEntriesDenoteTheirValues :
    let p : Position := { x := -2 ^ 31, y := 2 ^ 31 - 1, z := 65535 }
    let q : Quaternion := { w := 32767, x := -32768, y := 0, z := 32768 }
    ∀ x ∈ [p.x, p.y, p.z, q.w, q.x, q.y, q.z], (-2 ^ 31 : Int) ≤ x ∧ x < 2 ^ 31 := by decide

/-- The words past a BUTTON's and an ANALOG's own, and both ends of the ranges of num and den. -/
theorem witness_EntryHeaderFields :
    (2 ≤ 2 ∧ 7 < 8) ∧ (4 ≤ 4 ∧ 7 < 8)
    ∧ (∀ num ∈ [-2 ^ 31, 2 ^ 31 - 1], (-2 ^ 31 : Int) ≤ num ∧ num < 2 ^ 31) ∧ 2 ^ 32 - 1 < 2 ^ 32 := by decide

/-! ### Witnesses: the host port -/

/-- Each kind of bad access, and good accesses at the ends of the regions. -/
theorem witness_BusErrorExactlyOnBadAccess :
    let bad := fun (a : Nat) (width : BusWidth) =>
      decide (width ≠ .w32 ∨ a % 4 ≠ 0 ∨ (0x050 ≤ a ∧ a < 0x080) ∨ (0x0BC ≤ a ∧ a < 0x100) ∨ 0x3C0 ≤ a)
    (idleWith [] 0#32 [.access (.read 0xFFC#12 .w32)]).inputs = .access (.read 0xFFC#12 .w32) :: []
    ∧ (idleWith [] 0#32 [.access (.write 0x100#12 .w32 0#32)]).inputs = .access (.write 0x100#12 .w32 0#32) :: []
    ∧ [(0x000, BusWidth.w8), (0x044, .w16), (0x044, .w64), (0x001, .w32), (0x3BE, .w32), (0x050, .w32), (0x07C, .w32),
       (0x0BC, .w32), (0x0FC, .w32), (0x3C0, .w32), (0xFFC, .w32)].all (fun x => bad x.1 x.2) = true
    ∧ [0x000, 0x03C, 0x040, 0x044, 0x048, 0x04C, 0x080, 0x0B8, 0x100, 0x3BC].all (fun a => !bad a .w32) = true
    ∧ answers (step (idleWith fullMem 0#32 [hostRd 0x0B8#12])) (fun t => t.response == .data 7#32) = true
    ∧ answers (step (idleWith [] 0#32 [hostWr 0x0B8#12 1#32])) (fun t => t.response == .written) = true := by
  decide +kernel

/-- The first and the last word of RB. -/
theorem witness_ReportBufferLanes :
    [0, 15].all (fun k =>
      let s := idleWith fullMem 0#32 [hostRd (BitVec.ofNat 12 (4 * k))]
      let u := idleWith fullMem 0#32 [hostWr (BitVec.ofNat 12 (4 * k)) 0x04030201#32]
      decide (k < 16 ∧ s.status.busy = false ∧ u.status.busy = false
        ∧ s.inputs = .access (.read (BitVec.ofNat 12 (4 * k)) .w32) :: []
        ∧ u.inputs = .access (.write (BitVec.ofNat 12 (4 * k)) .w32 0x04030201#32) :: []
        ∧ (s.rb? (4 * k)).isSome ∧ (s.rb? (4 * k + 1)).isSome ∧ (s.rb? (4 * k + 2)).isSome
        ∧ (s.rb? (4 * k + 3)).isSome)) = true := by decide +kernel

/-- The first and the last word of WB. -/
theorem witness_WordBufferAccess :
    [0, 14].all (fun i =>
      let s := idleWith fullMem 0#32 [hostRd (BitVec.ofNat 12 (0x080 + 4 * i))]
      let u := idleWith fullMem 0#32 [hostWr (BitVec.ofNat 12 (0x080 + 4 * i)) 7#32]
      decide (i < 15 ∧ s.status.busy = false ∧ u.status.busy = false
        ∧ s.inputs = .access (.read (BitVec.ofNat 12 (0x080 + 4 * i)) .w32) :: []
        ∧ u.inputs = .access (.write (BitVec.ofNat 12 (0x080 + 4 * i)) .w32 7#32) :: []
        ∧ s.wb i = .ok 7#32)) = true := by decide +kernel

/-- The first and the last word of OBS; and a DECODE with OBS_COUNT = 3. -/
theorem witness_ObservationBufferReads :
    [(0, 0), (21, 7)].all (fun x =>
      let a := 0x100 + 32 * x.1 + 4 * x.2
      let s := idleWith (Memory.writeWords [] a [5#32]) 0#32 [hostRd (BitVec.ofNat 12 a)]
      decide (x.1 < 22 ∧ x.2 < 8 ∧ s.status.busy = false
        ∧ s.inputs = .access (.read (BitVec.ofNat 12 (0x100 + 32 * x.1 + 4 * x.2)) .w32) :: []
        ∧ s.obs x.1 x.2 = .ok 5#32)) = true
    ∧ (decoding reportF3 cfgA).status.busy = true
    ∧ answers (exec .decode (decoding reportF3 cfgA)) (fun t => decide (t.status.obsCount.toNat ≤ 3)) = true := by
  decide +kernel

theorem witness_ConfigStoresMaskedWord :
    (let s := idleWith [] 0#32 [hostWr 0x048#12 0xFFFFFFFF#32]
     s.inputs = .access (.write 0x048#12 .w32 0xFFFFFFFF#32) :: [] ∧ s.status.busy = false)
    ∧ (let s := busyWith [] 0#32 2#32 [hostWr 0x048#12 1#32]
       s.inputs = .access (.write 0x048#12 .w32 1#32) :: [] ∧ s.status.busy = true)
    ∧ (idleWith [] 0#32 [hostRd 0x048#12]).inputs = .access (.read 0x048#12 .w32) :: [] := by decide

theorem witness_StatusWriteOneToClear :
    (idleWith [] 0#32 [hostWr 0x044#12 6#32]).inputs = .access (.write 0x044#12 .w32 6#32) :: []
    ∧ (idleWith [] 0#32 [hostRd 0x044#12]).inputs = .access (.read 0x044#12 .w32) :: []
    ∧ (6#32).toNat / 2 % 2 = 1 ∧ (6#32).toNat / 4 % 2 = 1 := by decide

theorem witness_ControlStoresInterruptEnable :
    (idleWith [] 0#32 [hostWr 0x04C#12 0xFFFFFFFF#32]).inputs = .access (.write 0x04C#12 .w32 0xFFFFFFFF#32) :: []
    ∧ (idleWith [] 0#32 [hostRd 0x04C#12]).inputs = .access (.read 0x04C#12 .w32) :: [] := by decide

theorem witness_CommandRegisterReadsZero :
    (busyWith [] 0#32 2#32 [hostRd 0x040#12]).inputs = .access (.read 0x040#12 .w32) :: [] := by decide

/-- Each clause, at the ends of its ranges. -/
theorem witness_BusyWriteIsDroppedWithOverrun :
    [0x000#12, 0x03C#12, 0x040#12, 0x048#12, 0x080#12, 0x0B8#12].all (fun addr =>
      let s := busyWith [] 0#32 2#32 [hostWr addr 1#32]
      decide (s.status.busy = true ∧ s.inputs = .access (.write addr .w32 1#32) :: [] ∧ addr.toNat % 4 = 0
        ∧ (addr.toNat < 0x044 ∨ addr.toNat = 0x048 ∨ (0x080 ≤ addr.toNat ∧ addr.toNat < 0x0BC)))) = true
    ∧ (0x044#12 : BitVec 12).toNat = 0x044 ∧ (0x04C#12 : BitVec 12).toNat = 0x04C
    ∧ (6#32).getLsbD 1 = true ∧ (6#32).getLsbD 2 = true := by decide

theorem witness_BusyReadOfBufferIsUnspecified :
    [0x000#12, 0x03C#12, 0x080#12, 0x0B8#12, 0x100#12, 0x3BC#12].all (fun addr =>
      let s := busyWith [] 0#32 2#32 [hostRd addr]
      decide (s.status.busy = true ∧ s.inputs = .access (.read addr .w32) :: [] ∧ addr.toNat % 4 = 0
        ∧ (addr.toNat < 0x040 ∨ (0x080 ≤ addr.toNat ∧ addr.toNat < 0x0BC)
            ∨ (0x100 ≤ addr.toNat ∧ addr.toNat < 0x3C0)))) = true
    ∧ (0x044#12 : BitVec 12).toNat = 0x044 ∧ (0x048#12 : BitVec 12).toNat = 0x048
    ∧ (0x04C#12 : BitVec 12).toNat = 0x04C := by decide

theorem witness_HostReadsHaveNoSideEffect :
    let s := idleWith fullMem 0#32 [hostRd 0x03C#12]
    s.inputs = .access (.read 0x03C#12 .w32) :: [] ∧ answers (step s) (fun _ => true) = true := by decide +kernel

theorem witness_HostCannotDisturbBusyCommand :
    let s := busyWith [] 0#32 2#32 [hostWr 0x040#12 0x21#32, .engine]
    s.status.busy = true ∧ s.inputs = .access (.write 0x040#12 .w32 0x21#32) :: [.engine] := by decide

/-! ### Witnesses: the engine -/

theorem witness_EngineTurnEndsCommandOrIdles :
    (let s := idleWith [] 0#32 [.engine]
     s.inputs = .engine :: [] ∧ s.status.busy = false)
    ∧ (let s := { decrypting with inputs := [.engine] }
       s.inputs = .engine :: [] ∧ s.status.busy = true ∧ answers (step s) (fun _ => true) = true)
    ∧ (decrypting.inputs = [] ∧ answers (step decrypting) (fun _ => true) = true) := by decide +kernel

/-- A DECODE that writes OBS[0].w[0], and a reset that clears the last byte of OBS. -/
theorem witness_OnlyDecodeWritesObservations :
    answers (step (decoding reportF3 cfgA))
      (fun t => decide (t.mem.read? 0x100 ≠ (decoding reportF3 cfgA).mem.read? 0x100)) = true
    ∧ (let s := idleWith (Memory.writeWords [] 0x3BC [5#32]) 0#32 [.reset]
       answers (step s) (fun t => decide (t.mem.read? 0x3BF ≠ s.mem.read? 0x3BF)) = true) := by decide +kernel

theorem witness_OnlyHostWritesConfig :
    let s := idleWith [] 0#32 [hostWr 0x048#12 1#32]
    answers (step s) (fun t => decide (t.config ≠ s.config)) = true := by decide +kernel

/-- One case of each clause. -/
theorem witness_IrqFollowsDoneAndEnable :
    let ie : Ctrl := { ie := true }
    answers (step { decrypting with inputs := [.engine], ctrl := ie }) State.irq = true
    ∧ answers (step { decrypting with ctrl := ie }) State.irq = true ∧ decrypting.inputs = []
    ∧ (commandCheck ConfigReg.reset (decodeCmd 0#32) ≠ none ∧ commandCheck ConfigReg.reset (decodeCmd 0x21#32) = none)
    ∧ answers (step { idleWith [] 0#32 [hostWr 0x040#12 0#32] with ctrl := ie }) State.irq = true
    ∧ answers (step { idleWith [] 0#32 [hostWr 0x040#12 0x21#32] with ctrl := ie }) (fun t => !t.irq) = true
    ∧ ((2#32).getLsbD 1 = true
        ∧ answers (step { idleWith [] 0#32 [hostWr 0x044#12 2#32] with
            ctrl := ie, status := { Status.reset with done := true } }) (fun t => !t.irq) = true)
    ∧ ((2#32).getLsbD 0 = false
        ∧ answers (step { idleWith [] 0#32 [hostWr 0x04C#12 2#32] with
            ctrl := ie, status := { Status.reset with done := true } }) (fun t => !t.irq) = true)
    ∧ answers (step { decrypting with inputs := [.reset], ctrl := ie }) (fun t => !t.irq) = true := by decide +kernel

/-- RB[63] unwritten; WB's last byte unwritten under n = 2; the last byte of a read word unwritten. -/
theorem witness_UnwrittenCellFaults :
    (let s := busyWith (Memory.writeBlock [] 0 (List.replicate 63 0#8)) cfgA 2#32 []
     s.status.busy = true ∧ 1 ≤ s.config.woff.toNat ∧ s.config.woff.toNat ≤ 4 ∧ 63 < 64 ∧ s.rb? 63 = none)
    ∧ (let s := busyWith (Memory.writeBlock [] 0x80 (List.replicate 7 0#8)) 0#32 0x121#32 []
       s.status.busy = true ∧ 2 ≤ (2#4).toNat ∧ 0x80 ≤ 0x87 ∧ 0x87 < 0x80 + 4 * (2#4).toNat
         ∧ s.mem.read? 0x87 = none)
    ∧ (let s := idleWith (Memory.writeBlock [] 0x3BC (List.replicate 3 0#8)) 0#32 [hostRd 0x3BC#12]
       s.status.busy = false ∧ s.inputs = .access (.read 0x3BC#12 .w32) :: [] ∧ (0x3BC#12 : BitVec 12).toNat % 4 = 0
         ∧ (0x100 ≤ (0x3BC#12 : BitVec 12).toNat ∧ (0x3BC#12 : BitVec 12).toNat < 0x3C0)
         ∧ 0x3BC ≤ 0x3BF ∧ 0x3BF < 0x3BC + 4 ∧ s.mem.read? 0x3BF = none) := by decide +kernel

/-! ### Witnesses: reset -/

theorem witness_ResetInputAbandonsCommand :
    { decrypting with inputs := [.reset] }.inputs = .reset :: [] ∧ decrypting.status.busy = true := by decide

theorem witness_AfterResetDecryptAcceptedDecodeRefused :
    (let s := idleWith [] 0#32 [hostWr 0x040#12 (decryptWord 2#4 0#8)]
     s.status = Status.reset ∧ s.config = ConfigReg.reset ∧ s.ctrl = Ctrl.reset ∧ 2 ≤ (2#4).toNat
       ∧ s.inputs = .access (.write 0x040#12 .w32 (decryptWord 2#4 0#8)) :: [])
    ∧ (idleWith [] 0#32 [hostWr 0x040#12 2#32]).inputs = .access (.write 0x040#12 .w32 0x00000002#32) :: [] := by decide

/-! ### Witnesses: the invariant -/

/-- A busy state of one store of words inside a buffer, with a command that passes its checks latched, is lawful. -/
theorem busyWith_lawful (a : Nat) (ws : List Word) (config cmd : Word) (inputs : List Input) (h4 : a % 4 = 0)
    (hb : ∀ x, a ≤ x → x < a + 4 * ws.length → inBuffers x)
    (hc : commandCheck (ConfigReg.ofWord config) (decodeCmd cmd) = none) :
    (busyWith (Memory.writeWords [] a ws) config cmd inputs).Lawful where
  memWf := Memory.writeWords_wf _ _ _ List.Pairwise.nil
  memInBuffers := Memory.writeBlock_inBuffers _ _ _ (fun _ h => absurd h List.not_mem_nil)
    (by rwa [length_flatMap_wordBytes])
  memWholeWords := Memory.writeWords_wholeWords _ _ _ h4 (fun _ _ _ => rfl)
  latched := fun _ => ⟨cmd, rfl, hc⟩
  idle := fun h => nomatch h
  quiet := fun _ => ⟨rfl, rfl⟩
  count := show Status.reset.obsCount.toNat ≤ obsCap by decide
  noList := rfl

/-- A DECODE latched, RB full and WB unwritten (program P3), with a host read and an engine turn pending. -/
def lawfulDecode : State := busyWith (rbWith reportF3) cfgA 2#32 [hostRd 0x044#12, .engine]

/-- A DECRYPT of two words latched, RB and WB[2 .. 14] unwritten (program P1), with the same events pending. -/
def lawfulDecrypt : State :=
  busyWith (wbWith [0x7DB21788#32, 0x2B3D1004#32]) 0#32 0x121#32 [hostRd 0x044#12, .engine]

theorem lawfulDecode_lawful : lawfulDecode.Lawful :=
  busyWith_lawful _ _ _ _ _ (by decide)
    (fun x _ h => .inl (by have : reportF3.length = 16 := by decide
                           rw [this] at h; exact h))
    (by decide)

theorem lawfulDecrypt_lawful : lawfulDecrypt.Lawful :=
  busyWith_lawful _ _ _ _ _ (by decide)
    (fun x h1 h2 => .inr (.inl (by simp only [wbBase, List.length_cons, List.length_nil] at h1 h2; omega))) (by decide)

theorem witness_StepKeepsStateLawful :
    ∃ t, lawfulDecode.Lawful ∧ step lawfulDecode = .next t ∧ t.status.busy = true := by
  obtain ⟨t, h1, h2⟩ := answers_next (step lawfulDecode) (fun t => t.status.busy) (by decide +kernel)
  exact ⟨t, lawfulDecode_lawful, h1, h2⟩

/-- A lawful state whose step stops: an idle host read of the unwritten RB[0]. -/
theorem witness_LawfulStepStopsOnlyOnUnwrittenCell :
    (idleWith [] 0#32 [hostRd 0x000#12]).Lawful
      ∧ ∃ f, step (idleWith [] 0#32 [hostRd 0x000#12]) = .fault f := by
  refine ⟨⟨by decide, ?_, fun _ _ _ => rfl, ?_, fun _ => rfl, ?_, by decide, rfl⟩, ⟨.unwritten 0, rfl⟩⟩
  · intro c hc; exact absurd hc (List.not_mem_nil)
  · intro h; exact absurd h (by decide)
  · intro h; exact absurd h (by decide)

/-- DECODE with WB unwritten, and DECRYPT of two words with all else unwritten. -/
theorem witness_AcceptedCommandEventuallyCompletes (s : State) (hs : s = lawfulDecode ∨ s = lawfulDecrypt) :
    s.Lawful ∧ s.status.busy = true ∧ (∀ x ∈ s.inputs, x ≠ .reset)
    ∧ (∀ cmd, s.lc = some cmd →
        (decodeCmd cmd = some .decode → ∀ a, a < 0x40 → (s.mem.read? a).isSome)
        ∧ (∀ n br, decodeCmd cmd = some (.decrypt n br) →
            ∀ a, 0x80 ≤ a → a < 0x80 + 4 * n.toNat → (s.mem.read? a).isSome)) := by
  rcases hs with rfl | rfl
  · refine ⟨lawfulDecode_lawful, rfl, by decide, fun cmd hc => ?_⟩
    obtain rfl : 2#32 = cmd := Option.some.inj hc
    refine ⟨fun _ a h => ?_, fun n br hd => absurd hd (by rw [show decodeCmd 2#32 = some .decode from by decide]; simp)⟩
    exact (Memory.isSome_writeWords_nil rbBase reportF3 a).trans (decide_eq_true ⟨Nat.zero_le a, h⟩)
  · refine ⟨lawfulDecrypt_lawful, rfl, by decide, fun cmd hc => ?_⟩
    obtain rfl : 0x121#32 = cmd := Option.some.inj hc
    have e : decodeCmd 0x121#32 = some (.decrypt 2#4 1#8) := by decide
    refine ⟨fun hd => absurd hd (by rw [e]; simp), fun n br hd a h1 h2 => ?_⟩
    rw [e, Option.some.injEq, Instr.decrypt.injEq] at hd
    obtain ⟨rfl, rfl⟩ := hd
    exact (Memory.isSome_writeWords_nil wbBase _ a).trans (decide_eq_true ⟨h1, h2⟩)
end

section
/-! PROOF. The words of an OBS entry read one by one, tc32 read back, PSCALED read back from the header, and from these
what POSE and HOME entries denote (30_encoding.md R90, R92, R93). -/

namespace Sys2Proof.Machine

/-! ### Words of an entry -/

@[simp] theorem entryWord_cons_zero (w : Word) (e : List Word) : entryWord (w :: e) 0 = w := rfl

@[simp] theorem entryWord_cons_succ (w : Word) (e : List Word) (m : Nat) :
    entryWord (w :: e) (m + 1) = entryWord e m := rfl

/-- Two's complement loses nothing on the range that 00_scope.md R9 gives tc32. -/
theorem toInt_tc32 (x : Int) (hx : -2 ^ 31 ≤ x ∧ x < 2 ^ 31) : (tc32 x).toInt = x := by
  obtain ⟨hlow, hhigh⟩ := hx
  exact BitVec.toInt_ofInt_eq_self (by decide) hlow hhigh

/-- Bit 16 of a header is PSCALED, whatever the kind, source and index below it (30_encoding.md R90). -/
@[simp] theorem entryPscaled_entryHeader (kind : BitVec 4) (src : Source) (index : BitVec 8) (pscaled : Bool)
    (e : List Word) : entryPscaled (entryHeader kind src index pscaled :: e) = pscaled := by
  simp only [entryPscaled, entryWord_cons_zero, entryHeader, BitVec.getLsbD_append]
  simp

/-! ### Physical values -/

/-- POSE and HOME entries share their first four words, which alone decide the position they denote. -/
theorem physicalPosition_of_tc32_words (kind : BitVec 4) (src : Source) (index : BitVec 8) (pscaled : Bool)
    (x y z : Int) (e : List Word) (hx : -2 ^ 31 ≤ x ∧ x < 2 ^ 31) (hy : -2 ^ 31 ≤ y ∧ y < 2 ^ 31)
    (hz : -2 ^ 31 ≤ z ∧ z < 2 ^ 31) :
    physicalPosition (entryHeader kind src index pscaled :: tc32 x :: tc32 y :: tc32 z :: e)
      = ((x : Rat) * positionUnit pscaled, (y : Rat) * positionUnit pscaled, (z : Rat) * positionUnit pscaled) := by
  simp [physicalPosition, toInt_tc32 x hx, toInt_tc32 y hy, toInt_tc32 z hz]

theorem physicalQuaternion_of_tc32_words (w0 w1 w2 w3 : Word) (w x y z : Int) (hw : -2 ^ 31 ≤ w ∧ w < 2 ^ 31)
    (hx : -2 ^ 31 ≤ x ∧ x < 2 ^ 31) (hy : -2 ^ 31 ≤ y ∧ y < 2 ^ 31) (hz : -2 ^ 31 ≤ z ∧ z < 2 ^ 31) :
    physicalQuaternion [w0, w1, w2, w3, tc32 w, tc32 x, tc32 y, tc32 z]
      = ((w : Rat) / 16384, (x : Rat) / 16384, (y : Rat) / 16384, (z : Rat) / 16384) := by
  simp [physicalQuaternion, toInt_tc32 w hw, toInt_tc32 x hx, toInt_tc32 y hy, toInt_tc32 z hz]

/-- The part of a HOME entry where a POSE entry has its quaternion is empty (30_encoding.md R93). -/
theorem entryWord_home_eq_zero (src : Source) (p : Position) (pscaled : Bool) (m : Nat) (hlow : 4 ≤ m) (hhigh : m < 8) :
    entryWord (Observation.home src p pscaled).encode m = 0#32 := by
  interval_cases m <;> rfl

/-- Settles O32: the words are tc32 of the integers, which reads back on its range, and PSCALED reads back from the
header. -/
theorem poseAndHomeEntriesDenoteTheirValues : Obligations.PoseAndHomeEntriesDenoteTheirValues := by
  intro src p q pscaled hrange
  simp only [List.forall_mem_cons] at hrange
  obtain ⟨hpx, hpy, hpz, hqw, hqx, hqy, hqz, -⟩ := hrange
  refine ⟨?poseWords, ?homeWords, entryWord_home_eq_zero src p pscaled, ?posePosition, ?poseQuaternion, ?homePosition⟩
  case poseWords =>
    simp [List.range_succ, Observation.encode, toInt_tc32 _ hpx, toInt_tc32 _ hpy, toInt_tc32 _ hpz, toInt_tc32 _ hqw,
      toInt_tc32 _ hqx, toInt_tc32 _ hqy, toInt_tc32 _ hqz]
  case homeWords =>
    simp [List.range_succ, Observation.encode, toInt_tc32 _ hpx, toInt_tc32 _ hpy, toInt_tc32 _ hpz]
  case posePosition => exact physicalPosition_of_tc32_words _ _ _ _ _ _ _ _ hpx hpy hpz
  case poseQuaternion => exact physicalQuaternion_of_tc32_words _ _ _ _ _ _ _ _ hqw hqx hqy hqz
  case homePosition => exact physicalPosition_of_tc32_words _ _ _ _ _ _ _ _ hpx hpy hpz

end Sys2Proof.Machine
end

section
/-! PROOF. The commands at the port and in the engine: what `decodeCmd` reads back from a word, the acceptance rule for
every idle command (42_commands.md R160, R161), and everything a host write can do. -/

namespace Sys2Proof.Machine

open Host (Outcome)

/-! ### The agents -/

/-- The engine's turn is one agent, whether it is the pending event or comes because none is pending. -/
theorem step_agent_cases (s : State) :
    (∃ rest, (s.inputs = [] ∨ s.inputs = .engine :: rest) ∧ step s = engineTurn (s.setInputs rest))
    ∨ (∃ rest, s.inputs = .reset :: rest ∧ step s = .next (s.setInputs rest).resetBlock)
    ∨ (∃ addr width rest, s.inputs = .access (.read addr width) :: rest
        ∧ step s = hostRead addr width (s.setInputs rest))
    ∨ (∃ addr width v rest, s.inputs = .access (.write addr width v) :: rest
        ∧ step s = hostWrite addr width v (s.setInputs rest)) := by
  rcases step_cases s with ⟨hi, hs⟩ | ⟨rest, hi, hs⟩ | other
  · have hsame : s.setInputs [] = s := by rw [State.setInputs, ← hi]
    exact .inl ⟨[], .inl hi, by rw [hs, hsame]⟩
  · exact .inl ⟨rest, .inr hi, hs⟩
  · exact .inr other

/-! ### Command words -/

/-- A word is its four fields of 30_encoding.md R80. -/
theorem append_fields_of_word (cmd : Word) :
    cmd.extractLsb' 16 16 ++ cmd.extractLsb' 8 8 ++ cmd.extractLsb' 4 4 ++ cmd.extractLsb' 0 4 = cmd := by
  apply BitVec.eq_of_getLsbD_eq
  intro i hi
  simp only [BitVec.getLsbD_append, BitVec.getLsbD_extractLsb']
  interval_cases i <;> simp

theorem eq_decryptWord_of_decodeCmd (cmd : Word) (n : BitVec 4) (br : BitVec 8)
    (h : decodeCmd cmd = some (.decrypt n br)) : cmd = decryptWord n br := by
  unfold decodeCmd at h
  split at h
  · rename_i hfields
    obtain ⟨hop, hreserved⟩ := hfields
    simp only [Option.some.injEq, Instr.decrypt.injEq] at h
    obtain ⟨rfl, rfl⟩ := h
    have hword := append_fields_of_word cmd
    rw [hop, hreserved] at hword
    exact hword.symm
  · split at h <;> simp at h

theorem eq_decodeWord_of_decodeCmd (cmd : Word) (h : decodeCmd cmd = some .decode) : cmd = decodeWord := by
  unfold decodeCmd at h
  split at h
  · simp at h
  · split at h
    · rename_i hfields
      obtain ⟨hop, hreserved⟩ := hfields
      have hword : cmd.extractLsb' 4 28 ++ cmd.extractLsb' 0 4 = cmd := by
        apply BitVec.eq_of_getLsbD_eq
        intro i hi
        simp only [BitVec.getLsbD_append, BitVec.getLsbD_extractLsb']
        interval_cases i <;> simp
      rw [hop, hreserved] at hword
      exact hword.symm
    · simp at h

/-! ### The acceptance rule -/

/-- A command presented while idle is checked, and rejected or accepted (42_commands.md R161). -/
theorem exec_idle (s : State) (cmd : Word) (i : Instr) (hidle : s.status.busy = false) (hd : decodeCmd cmd = some i) :
    exec i s = .next (s.present cmd (commandCheck s.config (some i))) := by
  rcases decodeCmd_cases cmd i hd with ⟨n, br, rfl⟩ | rfl
  · rw [eq_decryptWord_of_decodeCmd cmd n br hd]
    exact execDecrypt_idle n br s hidle
  · rw [eq_decodeWord_of_decodeCmd cmd hd]
    exact execDecode_idle s hidle

/-- An idle CMD write, whatever the word (42_commands.md R160). -/
theorem writeCmd_idle (cmd : Word) (s : State) (hidle : s.status.busy = false) :
    writeCmd cmd s = .next ((s.setResponse .written).present cmd (commandCheck s.config (decodeCmd cmd))) := by
  unfold writeCmd
  rw [if_neg (by simp [hidle])]
  cases hd : decodeCmd cmd with
  | none => rfl
  | some i => exact exec_idle (s.setResponse .written) cmd i hidle hd

/-- A command that passes its check is a DECRYPT with n of at least 2, or a DECODE with VALID = 1 and a legal WOFF. -/
theorem decodeCmd_of_commandCheck (c : ConfigReg) (cmd : Word) (h : commandCheck c (decodeCmd cmd) = none) :
    (∃ n br, decodeCmd cmd = some (.decrypt n br) ∧ 2 ≤ n.toNat)
      ∨ (decodeCmd cmd = some .decode ∧ c.woffLegal = true) := by
  cases hd : decodeCmd cmd with
  | none => simp [hd, commandCheck] at h
  | some i =>
    rcases decodeCmd_cases cmd i hd with ⟨n, br, rfl⟩ | rfl
    · refine .inl ⟨n, br, rfl, ?_⟩
      simp only [hd, commandCheck, checkDecrypt] at h
      by_contra hn
      rw [if_pos (by omega)] at h
      simp at h
    · refine .inr ⟨rfl, ?_⟩
      simp only [hd, commandCheck, checkDecode] at h
      by_contra hw
      simp [hw] at h

/-! ### Host writes -/

theorem accessFits_iff (addr : BitVec 12) (width : BusWidth) :
    accessFits addr width = true ↔ width = .w32 ∧ addr.toNat % 4 = 0 := by
  simp [accessFits]

/-- The address ranges of the regions a host write stores to (20_memory.md R51). -/
theorem regionOf_bounds (a : Nat) :
    (regionOf a = .rb → a < 0x40) ∧ (regionOf a = .wb → 0x80 ≤ a ∧ a < 0xBC)
      ∧ (regionOf a = .config → 0x48 ≤ a ∧ a < 0x4C) := by
  unfold regionOf
  repeat' split
  all_goals simp_all

/-- The next states a host write can answer (20_memory.md R51 to R58), with the conditions that hold of each. -/
inductive HostWriteEffect (addr : BitVec 12) (width : BusWidth) (v : Word) (s : State) : State → Prop where
  | busError : HostWriteEffect addr width v s (s.raiseBusError addr)
  | dropped (busy : s.status.busy = true) : HostWriteEffect addr width v s s.dropWrite
  | stored (idle : s.status.busy = false) (aligned : addr.toNat % 4 = 0)
      (inRbOrWb : addr.toNat < 0x40 ∨ (0x80 ≤ addr.toNat ∧ addr.toNat < 0xBC)) :
      HostWriteEffect addr width v s ((s.setMem (s.mem.writeWords addr.toNat [v])).setResponse .written)
  | config (idle : s.status.busy = false) (at_config : addr = 0x048#12) (fits : width = .w32) :
      HostWriteEffect addr width v s ((s.setConfig (ConfigReg.ofWord v)).setResponse .written)
  | status : HostWriteEffect addr width v s ((s.acknowledge v).setResponse .written)
  | ctrl : HostWriteEffect addr width v s ((s.setCtrl (Ctrl.ofWord v)).setResponse .written)
  | command (idle : s.status.busy = false) :
      HostWriteEffect addr width v s ((s.setResponse .written).present v (commandCheck s.config (decodeCmd v)))

/-- A host write never stops, and has one of its effects. -/
theorem hostWrite_effect (addr : BitVec 12) (width : BusWidth) (v : Word) (s : State) :
    ∃ t, hostWrite addr width v s = .next t ∧ HostWriteEffect addr width v s t := by
  by_cases hf : accessFits addr width = true
  · obtain ⟨hwidth, haligned⟩ := (accessFits_iff addr width).1 hf
    obtain ⟨hrb, hwb, hconfig⟩ := regionOf_bounds addr.toNat
    unfold hostWrite
    rw [if_pos hf]
    cases hr : regionOf addr.toNat <;> cases hb : s.status.busy
    case rb.false => exact ⟨_, by simp [writeBuffer, hb], .stored hb haligned (.inl (hrb hr))⟩
    case wb.false => exact ⟨_, by simp [writeBuffer, hb], .stored hb haligned (.inr (hwb hr))⟩
    case config.false =>
      have hat : addr = 0x048#12 := by have := hconfig hr; bv_omega
      exact ⟨_, by simp [writeConfig, hb], .config hb hat hwidth⟩
    case cmd.false => exact ⟨_, writeCmd_idle v s hb, .command hb⟩
    case rb.true => exact ⟨_, by simp [writeBuffer, hb], .dropped hb⟩
    case wb.true => exact ⟨_, by simp [writeBuffer, hb], .dropped hb⟩
    case config.true => exact ⟨_, by simp [writeConfig, hb], .dropped hb⟩
    case cmd.true => exact ⟨_, by simp [writeCmd, hb], .dropped hb⟩
    case status.false | status.true => exact ⟨_, rfl, .status⟩
    case ctrl.false | ctrl.true => exact ⟨_, rfl, .ctrl⟩
    case obs.false | obs.true | reserved.false | reserved.true => exact ⟨_, rfl, .busError⟩
  · exact ⟨_, by simp [hostWrite, hf], .busError⟩

/-- What a host write did, if it answered `t`. -/
theorem hostWrite_next (addr : BitVec 12) (width : BusWidth) (v : Word) (s t : State)
    (h : hostWrite addr width v s = .next t) : HostWriteEffect addr width v s t := by
  obtain ⟨u, hu, heffect⟩ := hostWrite_effect addr width v s
  rw [hu, Outcome.next.injEq] at h
  exact h ▸ heffect

end Sys2Proof.Machine
end

section
/-! PROOF. The invariant `State.Lawful` (10_state.md R20, 20_memory.md R51 and R62, 42_commands.md R162 and R163): reset
has it, each named operation keeps it under the condition it is used with, and so every step does. -/

namespace Sys2Proof.Machine

open Host (Outcome)

/-! ### The buffers of a lawful state -/

/-- The part of `State.Lawful` that speaks of the buffers only. -/
structure Memory.Lawful (m : Memory) : Prop where
  wf : m.wf
  inside : ∀ c ∈ m, inBuffers c.1
  wholeWords : m.wholeWords

theorem State.Lawful.memLawful {s : State} (h : s.Lawful) : s.mem.Lawful :=
  ⟨h.memWf, h.memInBuffers, h.memWholeWords⟩

/-- Words stored at a word's address inside the buffers. -/
theorem Memory.Lawful.writeWords {m : Memory} (h : m.Lawful) (a : Nat) (ws : List Word) (haligned : a % 4 = 0)
    (hinside : ∀ x, a ≤ x → x < a + 4 * ws.length → inBuffers x) : (m.writeWords a ws).Lawful :=
  ⟨m.writeWords_wf a ws h.wf,
    m.writeBlock_inBuffers a _ h.inside (by rwa [length_flatMap_wordBytes]),
    m.writeWords_wholeWords a ws haligned h.wholeWords⟩

/-- Bytes stored over written bytes of RB: the crypt region need not begin at a word's address. -/
theorem Memory.Lawful.writeBlock_rb {m : Memory} (h : m.Lawful) (a : Nat) (bs : List Byte)
    (hinside : a + bs.length ≤ 0x40) (hwritten : ∀ x, x < 0x40 → (m.read? x).isSome) : (m.writeBlock a bs).Lawful :=
  ⟨m.writeBlock_wf a bs h.wf,
    m.writeBlock_inBuffers a bs h.inside (fun x _ hx => .inl (by omega)),
    m.writeBlock_wholeWords a bs h.wholeWords (fun i hi => hwritten (a + i) (by omega))⟩

/-- Fewer than sixteen words from WB[0] on lie in WB (20_memory.md R57). -/
theorem inBuffers_of_wb (n x : Nat) (hn : n ≤ 15) (hlow : wbBase ≤ x) (hhigh : x < wbBase + 4 * n) : inBuffers x :=
  .inr (.inl (by simp only [wbBase] at hlow hhigh; omega))

/-! ### Operations of the port -/

/-- Nothing in the invariant speaks of OVR, CTRL, the pending events, the port's answer or the draws, and DONE may
fall. -/
theorem State.Lawful.portUpdate {s : State} (h : s.Lawful) (done ovr : Bool) (ctrl : Ctrl) (inputs : List Input)
    (response : Response) (draws : Nat) (hdone : done = true → s.status.done = true) :
    { s with status := { s.status with done := done, ovr := ovr }, ctrl := ctrl, inputs := inputs,
             response := response, draws := draws : State }.Lawful where
  memWf := h.memWf
  memInBuffers := h.memInBuffers
  memWholeWords := h.memWholeWords
  latched := h.latched
  idle := h.idle
  quiet hbusy := by
    obtain ⟨hd, he⟩ := h.quiet hbusy
    refine ⟨?_, he⟩
    cases done with
    | false => rfl
    | true => rw [hdone rfl] at hd; exact hd
  count := h.count
  noList := h.noList

theorem State.Lawful.setInputs {s : State} (h : s.Lawful) (l : List Input) : (s.setInputs l).Lawful :=
  h.portUpdate s.status.done s.status.ovr s.ctrl l s.response s.draws id

theorem State.Lawful.setResponse {s : State} (h : s.Lawful) (r : Response) : (s.setResponse r).Lawful :=
  h.portUpdate s.status.done s.status.ovr s.ctrl s.inputs r s.draws id

theorem State.Lawful.raiseBusError {s : State} (h : s.Lawful) (addr : BitVec 12) : (s.raiseBusError addr).Lawful :=
  h.setResponse (.busError addr)

theorem State.Lawful.drawRead {s : State} (h : s.Lawful) : s.drawRead.Lawful :=
  h.portUpdate s.status.done s.status.ovr s.ctrl s.inputs _ _ id

theorem State.Lawful.dropWrite {s : State} (h : s.Lawful) : s.dropWrite.Lawful :=
  h.portUpdate s.status.done true s.ctrl s.inputs .written s.draws id

theorem State.Lawful.setCtrl {s : State} (h : s.Lawful) (c : Ctrl) : (s.setCtrl c).Lawful :=
  h.portUpdate s.status.done s.status.ovr c s.inputs s.response s.draws id

theorem State.Lawful.acknowledge {s : State} (h : s.Lawful) (v : Word) : (s.acknowledge v).Lawful :=
  h.portUpdate _ _ s.ctrl s.inputs s.response s.draws (fun hdone => (Bool.and_eq_true_iff.1 hdone).1)

theorem State.Lawful.setMem {s : State} (h : s.Lawful) {m : Memory} (hm : m.Lawful) : (s.setMem m).Lawful :=
  { h with memWf := hm.wf, memInBuffers := hm.inside, memWholeWords := hm.wholeWords }

/-- CONFIG may change while idle only: a latched command was checked against it. -/
theorem State.Lawful.setConfig {s : State} (h : s.Lawful) (hidle : s.status.busy = false) (c : ConfigReg) :
    (s.setConfig c).Lawful :=
  { h with latched := fun hbusy => absurd (hidle.symm.trans hbusy) (by decide) }

/-- The acceptance rule: a rejected command leaves the block idle, an accepted one has passed its check. -/
theorem State.Lawful.present {s : State} (h : s.Lawful) (hidle : s.status.busy = false) (cmd : Word) :
    (s.present cmd (commandCheck s.config (decodeCmd cmd))).Lawful := by
  cases hc : commandCheck s.config (decodeCmd cmd) with
  | some code => exact { h with quiet := fun hbusy => absurd (hidle.symm.trans hbusy) (by decide) }
  | none =>
    exact { h with
      latched := fun _ => ⟨cmd, rfl, hc⟩
      idle := fun hbusy => absurd hbusy (by simp)
      quiet := fun _ => ⟨rfl, rfl⟩ }

theorem State.Lawful.hostWriteEffect {s t : State} (h : s.Lawful) {addr : BitVec 12} {width : BusWidth} {v : Word}
    (he : HostWriteEffect addr width v s t) : t.Lawful := by
  cases he with
  | busError => exact h.raiseBusError addr
  | dropped busy => exact h.dropWrite
  | stored idle aligned inRbOrWb =>
    refine (h.setMem (h.memLawful.writeWords addr.toNat [v] aligned fun x hlow hhigh => ?_)).setResponse .written
    simp only [List.length_singleton] at hhigh
    unfold inBuffers
    omega
  | config idle at_config fits => exact (h.setConfig idle _).setResponse .written
  | status => exact (h.acknowledge v).setResponse .written
  | ctrl => exact (h.setCtrl _).setResponse .written
  | command idle => exact (h.setResponse .written).present idle v

theorem State.Lawful.hostRead_next {s t : State} (h : s.Lawful) {addr : BitVec 12} {width : BusWidth}
    (ht : hostRead addr width s = .next t) : t.Lawful := by
  rcases Machine.hostRead_next addr width s t ht with rfl | ⟨w, rfl⟩ | ⟨_, rfl⟩
  · exact h.raiseBusError addr
  · exact h.setResponse (.data w)
  · exact h.drawRead

/-! ### Operations of the engine -/

/-- A completion unlatches the command. -/
theorem State.Lawful.complete {s : State} (h : s.Lawful) : s.complete.Lawful :=
  { h with
    latched := fun hbusy => absurd hbusy (by simp)
    idle := fun _ => rfl
    quiet := fun hbusy => absurd hbusy (by simp) }

theorem State.Lawful.setObsCount {s : State} (h : s.Lawful) {n : Nat} (hn : n ≤ 22) : (s.setObsCount n).Lawful :=
  { h with count := by simp only [State.setObsCount_status, BitVec.toNat_ofNat, obsCap]; omega }

/-- A DECODE stores to the buffers, counts the observations and completes. -/
theorem decode_result_eq (r : List Byte) (l : List Observation) (s : State) :
    decodeEpilog ((decodeProlog r s).emit l)
      = (((s.setMem (((s.mem.writeWords wbBase (decryptedWords s.config r)).writeBlock (rbBase + s.config.woff.toNat)
          (unpackWords s.config.bo (decryptedWords s.config r))).writeWords obsBase (obsImage l))).setObsCount
            l.length).setObsList []).complete := rfl

/-- The buffers after a DECODE: WB first, then the crypt region over the written report, then OBS. -/
theorem Memory.Lawful.decode_result {s : State} {r : List Byte} (h : s.mem.Lawful) (hr : s.report = .ok r)
    (hw : s.config.woffLegal = true) (l : List Observation) :
    (decodeEpilog ((decodeProlog r s).emit l)).mem.Lawful := by
  obtain ⟨hlen, hbytes⟩ := (s.report_ok_iff r).1 hr
  have hwoff : s.config.woff.toNat ≤ 4 := (s.config.woffLegal_iff.1 hw).2
  have hwords : (decryptedWords s.config r).length = 15 := length_decryptedWords _ r hlen hw
  rw [decode_result_mem]
  have hwb := h.writeWords wbBase (decryptedWords s.config r) rfl
    (fun x => inBuffers_of_wb _ x hwords.le)
  have hrb := hwb.writeBlock_rb (rbBase + s.config.woff.toNat) (unpackWords s.config.bo (decryptedWords s.config r))
    (by rw [length_unpacked _ r hlen hw]; simp only [rbBase]; omega)
    (fun x hx => by
      rw [Memory.read?_writeWords_of_outside _ _ _ _ (.inl (by simp only [wbBase]; omega))]
      have hread : s.mem.read? x = r[x]? := by simpa [State.rb?, rbBase] using hbytes x hx
      simp [hread, hlen, hx])
  exact hrb.writeWords obsBase (obsImage l) rfl
    (fun x hlow hhigh => .inr (.inr (by simp only [obsBase, length_obsImage] at hlow hhigh; omega)))

theorem State.Lawful.engineTurn_next {s t : State} (h : s.Lawful) (ht : engineTurn s = .next t) : t.Lawful := by
  rcases Machine.engineTurn_next s t ht with
    ⟨_, rfl⟩ | ⟨_, cmd, n, br, ws, _, _, _, hws, rfl⟩ | ⟨_, cmd, r, _, _, hw, hr, rfl⟩
  · exact h
  · have hlen : (xxteaDecrypt n.toNat br.toNat ws).length ≤ 15 := by
      rw [length_xxteaDecrypt, s.wbWords_length _ _ hws]
      have := n.isLt
      omega
    exact (h.setMem (h.memLawful.writeWords wbBase _ rfl fun x => inBuffers_of_wb _ x hlen)).complete
  · rw [decode_result_eq]
    have hmem := h.memLawful.decode_result hr hw (decodedList s.config s.layout r)
    rw [decode_result_mem] at hmem
    exact { ((h.setMem hmem).setObsCount (length_decodedList_le _ _ _)).complete with noList := rfl }

/-! ### Reset and the step -/

theorem State.Lawful.resetBlock (s : State) : s.resetBlock.Lawful where
  memWf := List.Pairwise.nil
  memInBuffers c hc := absurd hc List.not_mem_nil
  memWholeWords _ _ _ := rfl
  latched hbusy := absurd hbusy (by simp [Status.reset])
  idle _ := rfl
  quiet hbusy := absurd hbusy (by simp [Status.reset])
  count := Nat.zero_le _
  noList := rfl

/-- Settles O56: the step is an engine turn, a reset or a host access, and each keeps the invariant. -/
theorem stepKeepsStateLawful : Obligations.StepKeepsStateLawful := by
  intro s t h ht
  rcases step_agent_cases s with ⟨rest, _, hs⟩ | ⟨rest, _, hs⟩ | ⟨addr, width, rest, _, hs⟩
    | ⟨addr, width, v, rest, _, hs⟩ <;> rw [hs] at ht
  · exact (h.setInputs rest).engineTurn_next ht
  · rw [← Outcome.next.inj ht]
    exact State.Lawful.resetBlock _
  · exact (h.setInputs rest).hostRead_next ht
  · exact (h.setInputs rest).hostWriteEffect (hostWrite_next _ _ _ _ _ ht)

/-- Settles O55: the reset state is what the reset input leaves of itself. -/
theorem resetIsLawful : Obligations.ResetIsLawful :=
  State.Lawful.resetBlock State.reset

/-! ### How a lawful state stops -/

/-- The engine of a lawful state has a checked command, so of the faults only an unwritten cell remains. -/
theorem State.Lawful.engineTurn_fault {s : State} (h : s.Lawful) {f : Fault} (hf : engineTurn s = .fault f) :
    ∃ x, f = .unwritten x ∧ s.mem.read? x = none := by
  unfold engineTurn at hf
  split at hf
  case isFalse => simp at hf
  case isTrue hbusy =>
    obtain ⟨cmd, hlc, hcheck⟩ := h.latched hbusy
    rcases decodeCmd_of_commandCheck s.config cmd hcheck with ⟨n, br, hd, hn⟩ | ⟨hd, hw⟩ <;>
      simp only [engineStep, hlc, hd] at hf
    · obtain ⟨-, ⟨hsmall, -⟩ | ⟨-, x, -, -, hx, rfl⟩⟩ := execDecrypt_fault n br s f hf
      · omega
      · exact ⟨x, rfl, hx⟩
    · obtain ⟨-, ⟨hillegal, -⟩ | ⟨-, x, -, hx, rfl⟩⟩ := execDecode_fault s f hf
      · simp [hw] at hillegal
      · exact ⟨x, rfl, by simpa [State.rb?, rbBase] using hx⟩

theorem exec_not_refused (s : State) (i : Instr) (q : Refusal) : exec i s ≠ .refused q := by
  cases i with
  | decrypt n br => exact execDecrypt_not_refused n br s q
  | decode => exact execDecode_not_refused s q
  | frameA5 => cases hr : s.report <;> simp [exec, execFrameA5, hr]
  | frameA6 => cases hr : s.report <;> simp [exec, execFrameA6, hr]
  | frameOther tag => simp [exec, execFrameOther]

theorem engineTurn_not_refused (s : State) (q : Refusal) : engineTurn s ≠ .refused q := by
  unfold engineTurn engineStep
  split
  · split
    · simp
    · split
      · simp
      · exact exec_not_refused s _ q
  · simp

/-- Settles O57: host writes never stop, host reads only on an unwritten cell, and the engine as its latched command
allows. -/
theorem lawfulStepStopsOnlyOnUnwrittenCell : Obligations.LawfulStepStopsOnlyOnUnwrittenCell := by
  intro s h
  rcases step_agent_cases s with ⟨rest, _, hs⟩ | ⟨rest, _, hs⟩ | ⟨addr, width, rest, _, hs⟩
    | ⟨addr, width, v, rest, _, hs⟩ <;> rw [hs]
  · exact ⟨engineTurn_not_refused _, fun f hf => (h.setInputs rest).engineTurn_fault hf⟩
  · exact ⟨by simp, by simp⟩
  · refine ⟨hostRead_not_refused _ _ _, fun f hf => ?_⟩
    obtain ⟨x, hx, rfl⟩ := hostRead_fault _ _ _ f hf
    exact ⟨x, rfl, hx⟩
  · obtain ⟨t, ht, -⟩ := hostWrite_effect addr width v (s.setInputs rest)
    rw [ht]
    exact ⟨by simp, by simp⟩

end Sys2Proof.Machine
end

section
/-! PROOF. The byte order BO (10_state.md R27): packing and unpacking undo each other and are positional, and after a
DECODE the crypt region and WB hold the same words (41_frame_decoder.md R121, R123, R153). -/

namespace Sys2Proof.Machine

/-! ### One word -/

theorem unpackWord_packWord (bo : Bool) (b0 b1 b2 b3 : Byte) :
    unpackWord bo (packWord bo b0 b1 b2 b3) = [b0, b1, b2, b3] := by
  cases bo with
  | true => exact wordBytes_of_wordOfBytes b0 b1 b2 b3
  | false => exact congrArg List.reverse (wordBytes_of_wordOfBytes b3 b2 b1 b0)

/-- Four bytes unpacked from a word pack to it again, before any further bytes. -/
theorem packWords_unpackWord_append (bo : Bool) (w : Word) (bs : List Byte) :
    packWords bo (unpackWord bo w ++ bs) = w :: packWords bo bs := by
  cases bo <;> exact congrArg (· :: packWords _ bs) (wordOfBytes_of_wordBytes w)

/-! ### Runs of words -/

theorem packWords_unpackWords (bo : Bool) (ws : List Word) : packWords bo (unpackWords bo ws) = ws := by
  induction ws with
  | nil => rfl
  | cons w ws ih => exact (packWords_unpackWord_append bo w _).trans (congrArg (w :: ·) ih)

theorem exists_four_cons (bs : List Byte) (h : 4 ≤ bs.length) :
    ∃ b0 b1 b2 b3 l, bs = b0 :: b1 :: b2 :: b3 :: l := by
  rcases bs with _ | ⟨b0, _ | ⟨b1, _ | ⟨b2, _ | ⟨b3, l⟩⟩⟩⟩ <;> simp at h ⊢

theorem unpackWords_packWords (bo : Bool) (k : Nat) (bs : List Byte) (h : bs.length = 4 * k) :
    unpackWords bo (packWords bo bs) = bs := by
  induction k generalizing bs with
  | zero =>
    obtain rfl : bs = [] := List.length_eq_zero_iff.1 h
    rfl
  | succ k ih =>
    obtain ⟨b0, b1, b2, b3, l, rfl⟩ := exists_four_cons bs (by omega)
    have hl : unpackWords bo (packWords bo l) = l := ih l (by simp only [List.length_cons] at h; omega)
    change unpackWord bo (packWord bo b0 b1 b2 b3) ++ unpackWords bo (packWords bo l) = _
    rw [unpackWord_packWord, hl]
    rfl

/-- Word `i` of a packed run, by arithmetic on its four bytes (41_frame_decoder.md R121). -/
theorem packWords_getD_toNat (bo : Bool) (bs : List Byte) (i : Nat) (h : 4 * i + 4 ≤ bs.length) :
    ((packWords bo bs).getD i 0#32).toNat
      = (if bo = true then (byteAt bs (4 * i + 0)).toNat + 2 ^ 8 * (byteAt bs (4 * i + 1)).toNat
            + 2 ^ 16 * (byteAt bs (4 * i + 2)).toNat + 2 ^ 24 * (byteAt bs (4 * i + 3)).toNat
          else 2 ^ 24 * (byteAt bs (4 * i + 0)).toNat + 2 ^ 16 * (byteAt bs (4 * i + 1)).toNat
            + 2 ^ 8 * (byteAt bs (4 * i + 2)).toNat + (byteAt bs (4 * i + 3)).toNat) := by
  rw [List.getD_eq_getElem?_getD, packWords_getElem? bo bs i h]
  exact packWord_toNat bo _ _ _ _

/-- Settles O19: both inverses and, byte by byte and word by word, the order BO. -/
theorem packAndUnpackAreInverse : Obligations.PackAndUnpackAreInverse := by
  refine ⟨packWords_unpackWords, unpackWords_packWords, fun bo k bs h => ?packed, fun bo ws => ?unpacked⟩
  case packed =>
    exact ⟨length_packWords bo k bs h, fun i hi => packWords_getD_toNat bo bs i (by omega)⟩
  case unpacked =>
    refine ⟨length_unpackWords bo ws, fun i j hi hj => ?_⟩
    rw [byteAt_unpackWords bo ws i j hi hj, byteAt_unpackWord bo _ j hj]

/-! ### What a DECODE leaves in RB, WB and OBS -/

/-- The crypt region after a DECODE holds the bytes of the decrypted words (41_frame_decoder.md R123). -/
theorem cryptRegion_decodedReport (c : ConfigReg) (r : List Byte) (hr : r.length = 64) (hw : c.woffLegal = true) :
    cryptRegion c.woff.toNat (decodedReport c r) = unpackWords c.bo (decryptedWords c r) := by
  have hwoff := (c.woffLegal_iff.1 hw).2
  have htake : (r.take c.woff.toNat).length = c.woff.toNat := by rw [List.length_take]; omega
  rw [cryptRegion, decodedReport, List.append_assoc, List.drop_left' htake,
    List.take_left' (length_unpacked c r hr hw)]

section
variable (s : State) (r : List Byte) (l : List Observation)

theorem decode_result_report (hr : s.report = .ok r) (hw : s.config.woffLegal = true) :
    (decodeEpilog ((decodeProlog r s).emit l)).report = .ok (decodedReport s.config r) := by
  rw [← decodeProlog_report r s hr hw, State.report, decode_result_mem, Memory.writeWords,
    Memory.readBlock_writeBlock_of_disjoint _ _ _ _ _ (.inl (by decide))]
  rfl

theorem decode_result_wbWords (hr : s.report = .ok r) (hw : s.config.woffLegal = true) :
    (decodeEpilog ((decodeProlog r s).emit l)).wbWords 15 = .ok (decryptedWords s.config r) := by
  have hlen := ((s.report_ok_iff r).1 hr).1
  have hwoff := (s.config.woffLegal_iff.1 hw).2
  have hwords := length_decryptedWords s.config r hlen hw
  have hstored := (s.mem.readWords_writeWords_same wbBase (decryptedWords s.config r))
  rw [hwords] at hstored
  rw [← hstored, State.wbWords, decode_result_mem]
  refine Memory.readWords_congr _ _ _ _ fun x hlow hhigh => ?_
  simp only [wbBase] at hlow hhigh
  rw [Memory.read?_writeWords_of_outside _ _ _ _ (.inl (by simp only [obsBase]; omega)),
    Memory.read?_writeBlock_of_outside _ _ _ _
      (.inr (by rw [length_unpacked _ r hlen hw]; simp only [rbBase]; omega))]

theorem decode_result_obsWords :
    (decodeEpilog ((decodeProlog r s).emit l)).mem.readWords obsBase 176 = .ok (obsImage l) := by
  have hstored := Memory.readWords_writeWords_same ((s.mem.writeWords wbBase (decryptedWords s.config r)).writeBlock
    (rbBase + s.config.woff.toNat) (unpackWords s.config.bo (decryptedWords s.config r))) obsBase (obsImage l)
  rw [length_obsImage] at hstored
  rw [decode_result_mem, hstored]

end

/-- Word `i` of a run that reads as `ws`. -/
theorem Memory.readWord_of_readWords {m : Memory} {a n : Nat} {ws : List Word} (h : m.readWords a n = .ok ws) (i : Nat)
    (hi : i < n) : m.readWord (a + 4 * i) = .ok (ws.getD i 0#32) := by
  obtain ⟨hlen, hword⟩ := (m.readWords_ok_iff a n ws).1 h
  rw [hword i (by omega), List.getD_eq_getElem _ _ (by omega)]

theorem State.wb_of_wbWords {s : State} {n : Nat} {ws : List Word} (h : s.wbWords n = .ok ws) (i : Nat) (hi : i < n) :
    s.wb i = .ok (ws.getD i 0#32) :=
  Memory.readWord_of_readWords h i hi

/-- OBS is 22 entries of eight words, one after the other (30_encoding.md R90, 20_memory.md R60). -/
theorem State.obs_of_readWords {s : State} {ws : List Word} (h : s.mem.readWords obsBase 176 = .ok ws) (j m : Nat)
    (hj : j < 22) (hm : m < 8) : s.obs j m = .ok (ws.getD (8 * j + m) 0#32) := by
  rw [State.obs, show obsBase + 32 * j + 4 * m = obsBase + 4 * (8 * j + m) by omega]
  exact Memory.readWord_of_readWords h _ (by omega)

/-- RB, WB, OBS and OBS_COUNT after a DECODE that completed, from the report it found. -/
theorem execDecode_result (s t : State) (hbusy : s.status.busy = true) (ht : execDecode s = .next t) :
    s.config.woffLegal = true ∧ ∃ r, s.report = .ok r ∧ t.report = .ok (decodedReport s.config r)
      ∧ t.wbWords 15 = .ok (decryptedWords s.config r)
      ∧ t.mem.readWords obsBase 176 = .ok (obsImage (decodedList s.config s.layout r))
      ∧ t.status.obsCount = BitVec.ofNat 5 (decodedList s.config s.layout r).length := by
  obtain ⟨hw, r, hr, rfl⟩ := execDecode_next s t hbusy ht
  refine ⟨hw, r, hr, decode_result_report s r _ hr hw, decode_result_wbWords s r _ hr hw,
    decode_result_obsWords s r _, ?_⟩
  rw [decode_result_status]

/-- Settles O18: WB and the crypt region are both written from the decrypted words, and packing undoes unpacking. -/
theorem bytesAndWordsAgreeAfterDecode : Obligations.BytesAndWordsAgreeAfterDecode := by
  intro s t hbusy ht
  obtain ⟨hw, r, hr, hreport, hwords, -, -⟩ := execDecode_result s t hbusy ht
  have hlen := ((s.report_ok_iff r).1 hr).1
  have hregion := cryptRegion_decodedReport s.config r hlen hw
  have hpacked : packWords s.config.bo (cryptRegion s.config.woff.toNat (decodedReport s.config r))
      = decryptedWords s.config r := by
    rw [hregion, packWords_unpackWords]
  rw [← hpacked] at hwords
  refine ⟨decodedReport s.config r, hreport, hwords, fun i hi => ⟨_, State.wb_of_wbWords hwords i hi, ?_⟩⟩
  have hcrypt : ∀ j, j < 4 → byteAt (cryptRegion s.config.woff.toNat (decodedReport s.config r)) (4 * i + j)
      = byteAt (decodedReport s.config r) (s.config.woff.toNat + 4 * i + j) := by
    intro j hj
    rw [byteAt_cryptRegion _ _ _ (by omega), Nat.add_assoc]
  have hinside : 4 * i + 4 ≤ (cryptRegion s.config.woff.toNat (decodedReport s.config r)).length := by
    rw [hregion, length_unpacked _ r hlen hw]
    omega
  rw [packWords_getD_toNat _ _ i hinside, hcrypt 0 (by omega), hcrypt 1 (by omega), hcrypt 2 (by omega),
    hcrypt 3 (by omega)]

/-- Settles O22: RB, WB and OBS after a DECODE are functions of the report, CONFIG and the selected layout table. -/
theorem decodeDependsOnlyOnReportAndConfig : Obligations.DecodeDependsOnlyOnReportAndConfig := by
  intro s₁ s₂ t₁ t₂ hbusy₁ hbusy₂ hconfig hlayout0 hlayout1 hrb ht₁ ht₂
  obtain ⟨-, r, hr₁, hreport₁, hwb₁, hobs₁, hcount₁⟩ := execDecode_result s₁ t₁ hbusy₁ ht₁
  obtain ⟨-, r₂, hr₂, hreport₂, hwb₂, hobs₂, hcount₂⟩ := execDecode_result s₂ t₂ hbusy₂ ht₂
  have hlayout : s₂.layout = s₁.layout := by
    unfold State.layout
    rw [← hconfig]
    cases hlsel : s₁.config.lsel with
    | false => simp [hlayout0 hlsel]
    | true => simp [hlayout1 hlsel]
  obtain rfl : r = r₂ := by
    obtain ⟨hlen, hbytes⟩ := (s₁.report_ok_iff r).1 hr₁
    have hr : s₂.report = .ok r := (s₂.report_ok_iff r).2 ⟨hlen, fun i hi => (hrb i hi).symm.trans (hbytes i hi)⟩
    exact Except.ok.inj (hr.symm.trans hr₂)
  rw [← hconfig] at hreport₂ hwb₂
  rw [← hconfig, hlayout] at hobs₂ hcount₂
  refine ⟨fun i hi => ?rb, fun i hi => ?wb, fun j m hj hm => ?obs, hcount₁.trans hcount₂.symm⟩
  case rb =>
    rw [((t₁.report_ok_iff _).1 hreport₁).2 i hi, ((t₂.report_ok_iff _).1 hreport₂).2 i hi]
  case wb => rw [State.wb_of_wbWords hwb₁ i hi, State.wb_of_wbWords hwb₂ i hi]
  case obs => rw [State.obs_of_readWords hobs₁ j m hj hm, State.obs_of_readWords hobs₂ j m hj hm]

/-! ### The frames -/

/-- Settles O23: a frame appends what its records emit under the selected table, which is `State.layout`. -/
theorem framesEmitTheirRecords : Obligations.FramesEmitTheirRecords :=
  ⟨fun s r hr => ⟨execFrameA5_ok s r hr, execFrameA6_ok s r hr⟩, fun _ _ => rfl⟩

end Sys2Proof.Machine
end

section
/-! PROOF. The registers at the host port (10_state.md R27 to R32): where their fields stand, what a write stores and
what a read returns. -/

namespace Sys2Proof.Machine

open Host (Outcome)

/-! ### The words of the registers -/

/-- Fields side by side, by arithmetic. -/
theorem toNat_append_eq_add {m n : Nat} (x : BitVec m) (y : BitVec n) :
    (x ++ y).toNat = 2 ^ n * x.toNat + y.toNat := by
  rw [BitVec.toNat_append, ← Nat.shiftLeft_add_eq_or_of_lt y.isLt, Nat.shiftLeft_eq, Nat.mul_comm]

/-- CONFIG reads back the stored bits of the word written (10_state.md R28). -/
theorem ConfigReg.word_ofWord (v : Word) : (ConfigReg.ofWord v).word = v &&& 0x800003FF#32 := by
  apply BitVec.eq_of_getLsbD_eq
  intro i hi
  simp only [ConfigReg.word, ConfigReg.ofWord, BitVec.getLsbD_append, BitVec.getLsbD_and, BitVec.getLsbD_ofBool]
  interval_cases i <;> simp

/-- Settles O41: each register is its fields side by side. -/
theorem registerWordLayouts : Obligations.RegisterWordLayouts := by
  refine ⟨fun st => ?status, fun c => ?config, fun c => ?ctrl⟩
  case status =>
    cases he : st.err <;>
      simp only [Status.word, toNat_append_eq_add, BitVec.toNat_ofBool, BitVec.toNat_ofNat, he, ErrCode.code] <;> omega
  case config =>
    simp only [ConfigReg.word, toNat_append_eq_add, BitVec.toNat_ofBool, BitVec.toNat_ofNat]
    omega
  case ctrl =>
    simp only [Ctrl.word, toNat_append_eq_add, BitVec.toNat_ofBool, BitVec.toNat_ofNat]
    omega

/-! ### Steps at the port -/

theorem step_of_read {s : State} {addr : BitVec 12} {width : BusWidth} {rest : List Input}
    (h : s.inputs = .access (.read addr width) :: rest) : step s = hostRead addr width (s.setInputs rest) := by
  simp only [step, h, hostAccess]

theorem step_of_write {s : State} {addr : BitVec 12} {width : BusWidth} {v : Word} {rest : List Input}
    (h : s.inputs = .access (.write addr width v) :: rest) : step s = hostWrite addr width v (s.setInputs rest) := by
  simp only [step, h, hostAccess]

theorem hostWrite_cmd (v : Word) (s : State) : hostWrite 0x040#12 .w32 v s = writeCmd v s := rfl

theorem hostWrite_status (v : Word) (s : State) :
    hostWrite 0x044#12 .w32 v s = .next ((s.acknowledge v).setResponse .written) := rfl

theorem hostWrite_config (v : Word) (s : State) : hostWrite 0x048#12 .w32 v s = .next (writeConfig v s) := rfl

theorem hostWrite_ctrl (v : Word) (s : State) :
    hostWrite 0x04C#12 .w32 v s = .next ((s.setCtrl (Ctrl.ofWord v)).setResponse .written) := rfl

/-- Settles O38: a CONFIG write while idle stores `ConfigReg.ofWord`, whose word is the masked one; while busy it is
dropped. -/
theorem configStoresMaskedWord : Obligations.ConfigStoresMaskedWord := by
  intro s v rest
  refine ⟨fun hi hidle => ?stored, fun hi hbusy => ?dropped, fun hi => step_of_read hi⟩
  case stored =>
    have hw : writeConfig v (s.setInputs rest)
        = ((s.setInputs rest).setConfig (ConfigReg.ofWord v)).setResponse .written := by
      simp [writeConfig, hidle]
    rw [step_of_write hi, hostWrite_config, hw]
    exact ⟨_, rfl, ConfigReg.word_ofWord v, rfl⟩
  case dropped =>
    have hw : writeConfig v (s.setInputs rest) = (s.setInputs rest).dropWrite := by
      simp [writeConfig, hbusy]
    rw [step_of_write hi, hostWrite_config, hw]
    rfl

/-- Write-1-to-clear of one bit, by arithmetic on the word written (10_state.md R30). -/
theorem and_not_getLsbD (v : Word) (k : Nat) (b : Bool) :
    (b && !v.getLsbD k) = if v.toNat / 2 ^ k % 2 = 1 then false else b := by
  rw [BitVec.getLsbD, Nat.testBit_eq_decide_div_mod_eq]
  by_cases h : v.toNat / 2 ^ k % 2 = 1 <;> simp [h]

/-- Settles O39: the write is `State.acknowledge`, which clears a bit where `v` has a 1 and keeps it elsewhere. -/
theorem statusWriteOneToClear : Obligations.StatusWriteOneToClear := by
  intro s v rest
  refine ⟨fun hi => ?_, fun hi => step_of_read hi⟩
  rw [step_of_write hi, hostWrite_status]
  exact ⟨_, rfl, rfl, and_not_getLsbD v 1 s.status.done, and_not_getLsbD v 2 s.status.ovr⟩

/-- Settles O40: IE is bit 0 of the word written, which is its parity. -/
theorem controlStoresInterruptEnable : Obligations.ControlStoresInterruptEnable := by
  intro s v rest
  refine ⟨fun hi => ?written, fun hi => ?read⟩
  case written =>
    have hie : Ctrl.ofWord v = { ie := decide (v.toNat % 2 = 1) } := by
      rw [Ctrl.ofWord, BitVec.getLsbD, Nat.testBit_zero]
    rw [step_of_write hi, hostWrite_ctrl, hie]
    rfl
  case read =>
    have hword : s.ctrl.word = if s.ctrl.ie then 1#32 else 0#32 := by
      cases hie : s.ctrl.ie <;> simp [Ctrl.word, hie]
    rw [step_of_read hi, ← hword]
    rfl

/-- Settles O42: the address map answers a read of CMD with the constant 0. -/
theorem commandRegisterReadsZero : Obligations.CommandRegisterReadsZero :=
  fun _ _ hi => step_of_read hi

/-- Settles O52: `State.reset` is written out field by field. -/
theorem resetValues : Obligations.ResetValues :=
  ⟨rfl, rfl, rfl, rfl, rfl, fun _ => rfl, rfl, rfl, rfl⟩

end Sys2Proof.Machine
end

section
/-! PROOF. Which steps change a register, a buffer or the irq line (10_state.md R20, R26, R28, R34, R36), and which steps
stop on an unwritten cell (R37). -/

namespace Sys2Proof.Machine

open Host (Outcome)

/-! ### Who writes OBS and CONFIG -/

/-- A host read leaves the buffers, CONFIG and the layout tables (20_memory.md R63). -/
theorem hostRead_frame {addr : BitVec 12} {width : BusWidth} {s t : State} (h : hostRead addr width s = .next t) :
    t.mem = s.mem ∧ t.config = s.config ∧ t.layout0 = s.layout0 ∧ t.layout1 = s.layout1 := by
  rcases hostRead_next addr width s t h with rfl | ⟨w, rfl⟩ | ⟨-, rfl⟩ <;> exact ⟨rfl, rfl, rfl, rfl⟩

/-- No engine turn writes CONFIG or the layout tables. -/
theorem engineTurn_config {s t : State} (h : engineTurn s = .next t) :
    t.config = s.config ∧ t.layout0 = s.layout0 ∧ t.layout1 = s.layout1 := by
  rcases engineTurn_next s t h with
    ⟨-, rfl⟩ | ⟨-, cmd, n, br, ws, -, -, -, -, rfl⟩ | ⟨-, cmd, r, -, -, -, -, rfl⟩ <;> exact ⟨rfl, rfl, rfl⟩

/-- An engine turn that changes a byte above WB performs a DECODE. -/
theorem engineTurn_writes_obs {s t : State} {a : Nat} (h : engineTurn s = .next t) (ha : 0x100 ≤ a)
    (hne : t.mem.read? a ≠ s.mem.read? a) : s.status.busy = true ∧ s.lc = some decodeWord := by
  rcases engineTurn_next s t h with
    ⟨-, rfl⟩ | ⟨-, cmd, n, br, ws, -, -, -, hws, rfl⟩ | ⟨hbusy, cmd, r, hlc, hd, -, -, -⟩
  · exact absurd rfl hne
  · refine absurd (Memory.read?_writeWords_of_outside _ _ _ _ (.inr ?_)) hne
    rw [length_xxteaDecrypt, s.wbWords_length _ _ hws]
    have := n.isLt
    simp only [wbBase]
    omega
  · rw [hlc, eq_decodeWord_of_decodeCmd cmd hd]
    exact ⟨hbusy, rfl⟩

/-- A host write stores to RB or WB only. -/
theorem HostWriteEffect.read?_obs {addr : BitVec 12} {width : BusWidth} {v : Word} {s t : State}
    (he : HostWriteEffect addr width v s t) {a : Nat} (ha : 0x100 ≤ a) : t.mem.read? a = s.mem.read? a := by
  cases he with
  | stored idle aligned inRbOrWb =>
    exact Memory.read?_writeWords_of_outside _ _ _ _ (.inr (by simp only [List.length_singleton]; omega))
  | command idle => rw [State.present_mem, State.setResponse_mem]
  | busError | dropped busy | config idle at_config fits | status | ctrl => rfl

/-- Settles O48: of the agents only the engine stores above WB, and only for a DECODE. -/
theorem onlyDecodeWritesObservations : Obligations.OnlyDecodeWritesObservations := by
  intro s t a ht ha _ hne
  rcases step_agent_cases s with ⟨rest, hi, hs⟩ | ⟨rest, hi, hs⟩ | ⟨addr, width, rest, hi, hs⟩
    | ⟨addr, width, v, rest, hi, hs⟩ <;> rw [hs] at ht
  · obtain ⟨hbusy, hlc⟩ := engineTurn_writes_obs ht ha hne
    exact .inr ⟨hbusy, hlc, hi.imp_right fun h => ⟨rest, h⟩⟩
  · exact .inl ⟨rest, hi⟩
  · obtain ⟨hmem, -⟩ := hostRead_frame ht
    exact absurd (by rw [hmem]; rfl) hne
  · exact absurd ((hostWrite_next _ _ _ _ _ ht).read?_obs ha) hne

/-- A host write leaves the layout tables, and changes CONFIG only while idle and at its address. -/
theorem HostWriteEffect.config_cases {addr : BitVec 12} {width : BusWidth} {v : Word} {s t : State}
    (he : HostWriteEffect addr width v s t) :
    t.layout0 = s.layout0 ∧ t.layout1 = s.layout1
      ∧ (t.config = s.config ∨ (s.status.busy = false ∧ addr = 0x048#12 ∧ width = .w32)) := by
  cases he with
  | config idle at_config fits => exact ⟨rfl, rfl, .inr ⟨idle, at_config, fits⟩⟩
  | command idle => simp
  | busError | dropped busy | stored idle aligned inRbOrWb | status | ctrl => exact ⟨rfl, rfl, .inl rfl⟩

/-- Settles O49: of the host's effects only the CONFIG write changes CONFIG, and the engine never does. -/
theorem onlyHostWritesConfig : Obligations.OnlyHostWritesConfig := by
  intro s t ht
  rcases step_agent_cases s with ⟨rest, hi, hs⟩ | ⟨rest, hi, hs⟩ | ⟨addr, width, rest, hi, hs⟩
    | ⟨addr, width, v, rest, hi, hs⟩ <;> rw [hs] at ht
  · obtain ⟨hconfig, h0, h1⟩ := engineTurn_config ht
    exact ⟨h0, h1, fun hne => absurd hconfig hne⟩
  · rw [← Outcome.next.inj ht]
    exact ⟨rfl, rfl, fun _ => .inl ⟨rest, hi⟩⟩
  · obtain ⟨-, hconfig, h0, h1⟩ := hostRead_frame ht
    exact ⟨h0, h1, fun hne => absurd hconfig hne⟩
  · obtain ⟨h0, h1, hconfig | ⟨hidle, rfl, rfl⟩⟩ := (hostWrite_next _ _ _ _ _ ht).config_cases
    · exact ⟨h0, h1, fun hne => absurd hconfig hne⟩
    · exact ⟨h0, h1, fun _ => .inr ⟨hidle, v, rest, hi⟩⟩

/-! ### The irq line -/

theorem State.irq_iff (s : State) : s.irq = true ↔ s.status.done = true ∧ s.ctrl.ie = true :=
  Bool.and_eq_true_iff

theorem State.irq_of_not_done {s : State} (h : s.status.done = false) : s.irq = false := by
  simp [State.irq, h]

/-- A completion sets DONE and leaves IE (42_commands.md R163). -/
theorem engineTurn_irq {s t : State} (h : engineTurn s = .next t) (hbusy : s.status.busy = true)
    (hie : s.ctrl.ie = true) : t.irq = true := by
  rw [State.irq_iff]
  rcases engineTurn_next s t h with
    ⟨hidle, -⟩ | ⟨-, cmd, n, br, ws, -, -, -, -, rfl⟩ | ⟨-, cmd, r, -, -, -, -, rfl⟩
  · simp [hidle] at hbusy
  · exact ⟨rfl, hie⟩
  · exact ⟨rfl, hie⟩

/-- Settles O50: a completion and a rejection set DONE; an acceptance, a DONE acknowledged and a reset clear it. -/
theorem irqFollowsDoneAndEnable : Obligations.IrqFollowsDoneAndEnable := by
  refine ⟨State.irq_iff, rfl, fun s t rest ht => ⟨?engine, ?command, ?status, ?ctrl, ?reset⟩⟩
  case engine =>
    rintro (hi | hi) hbusy hie <;> simp only [step, hi] at ht
    · exact engineTurn_irq ht hbusy hie
    · exact engineTurn_irq (s := s.setInputs rest) ht hbusy hie
  case command =>
    intro cmd hi hidle
    rw [step_of_write hi, hostWrite_cmd, writeCmd_idle cmd (s.setInputs rest) hidle] at ht
    obtain rfl := Outcome.next.inj ht
    simp only [State.setInputs_config]
    cases commandCheck s.config (decodeCmd cmd) with
    | none => exact ⟨fun h => absurd rfl h, fun _ => State.irq_of_not_done rfl⟩
    | some code => exact ⟨fun _ hie => (State.irq_iff _).2 ⟨rfl, hie⟩, fun h => absurd h (by simp)⟩
  case status =>
    intro v hi hv
    rw [step_of_write hi, hostWrite_status] at ht
    obtain rfl := Outcome.next.inj ht
    exact State.irq_of_not_done (by simp [hv])
  case ctrl =>
    intro v hi hv
    rw [step_of_write hi, hostWrite_ctrl] at ht
    obtain rfl := Outcome.next.inj ht
    have hie : (Ctrl.ofWord v).ie = false := hv
    simp [State.irq, hie]
  case reset =>
    intro hi
    simp only [step, hi, Outcome.next.injEq] at ht
    obtain rfl := ht
    exact State.irq_of_not_done rfl

/-! ### Unwritten cells -/

/-- A run with an unwritten byte cannot be read, and the byte it names is one of its own. -/
theorem Memory.readBlock_of_unwritten (m : Memory) {a n x : Nat} (hlow : a ≤ x) (hhigh : x < a + n)
    (hx : m.read? x = none) : ∃ y, m.readBlock a n = .error (.unwritten y) ∧ a ≤ y ∧ y < a + n ∧ m.read? y = none := by
  cases hr : m.readBlock a n with
  | error f =>
    obtain ⟨y, h1, h2, h3, rfl⟩ := m.readBlock_error a n f hr
    exact ⟨y, rfl, h1, h2, h3⟩
  | ok bs =>
    obtain ⟨hlen, hread⟩ := (m.readBlock_ok_iff a n bs).1 hr
    have hbyte := hread (x - a) (by omega)
    rw [show a + (x - a) = x by omega, hx, List.getElem?_eq_getElem (by omega)] at hbyte
    simp at hbyte

theorem Memory.readWord_of_unwritten (m : Memory) {a x : Nat} (hlow : a ≤ x) (hhigh : x < a + 4)
    (hx : m.read? x = none) : ∃ y, m.readWord a = .error (.unwritten y) ∧ a ≤ y ∧ y < a + 4 ∧ m.read? y = none := by
  obtain ⟨y, hr, hy⟩ := m.readBlock_of_unwritten hlow hhigh hx
  exact ⟨y, by rw [Memory.readWord, hr], hy⟩

theorem Memory.readWords_of_unwritten (m : Memory) {a n x : Nat} (hlow : a ≤ x) (hhigh : x < a + 4 * n)
    (hx : m.read? x = none) :
    ∃ y, m.readWords a n = .error (.unwritten y) ∧ a ≤ y ∧ y < a + 4 * n ∧ m.read? y = none := by
  cases hr : m.readWords a n with
  | error f =>
    obtain ⟨y, h1, h2, h3, rfl⟩ := m.readWords_error a n f hr
    exact ⟨y, rfl, h1, h2, h3⟩
  | ok ws =>
    obtain ⟨y, hy, -⟩ := m.readWord_of_unwritten (a := a + 4 * ((x - a) / 4)) (by omega) (by omega) hx
    have hword := Memory.readWord_of_readWords hr ((x - a) / 4) (by omega)
    rw [hy] at hword
    simp at hword

theorem hostRead_of_buffer {addr : BitVec 12} (s : State) (haligned : addr.toNat % 4 = 0)
    (hbuffer : addr.toNat < 0x40 ∨ (0x80 ≤ addr.toNat ∧ addr.toNat < 0xBC)
      ∨ (0x100 ≤ addr.toNat ∧ addr.toNat < 0x3C0)) :
    hostRead addr .w32 s = readBuffer addr.toNat s := by
  have hregion : regionOf addr.toNat = .rb ∨ regionOf addr.toNat = .wb ∨ regionOf addr.toNat = .obs := by
    unfold regionOf
    split_ifs <;> simp <;> omega
  rw [hostRead, if_pos ((accessFits_iff addr .w32).2 ⟨rfl, haligned⟩)]
  rcases hregion with hr | hr | hr <;> rw [hr]

/-- Settles O51: each use reads a run of bytes or words, and a run with an unwritten byte cannot be read. -/
theorem unwrittenCellFaults : Obligations.UnwrittenCellFaults := by
  refine ⟨?decode, ?decrypt, ?read⟩
  case decode =>
    intro s i hbusy hlow hhigh hi hunwritten
    obtain ⟨x, hr, -, hx, hnone⟩ := s.mem.readBlock_of_unwritten (a := rbBase) (n := 64) (Nat.le_add_right _ i)
      (by omega) hunwritten
    have hw : s.config.woffLegal = true := s.config.woffLegal_iff.2 ⟨hlow, hhigh⟩
    refine ⟨x, ?_, by simpa [rbBase] using hx, hnone⟩
    simp [exec, execDecode, performDecode, hbusy, hw, State.report, hr]
  case decrypt =>
    intro s n br a hbusy hn hlow hhigh hunwritten
    obtain ⟨x, hr, hx⟩ := s.mem.readWords_of_unwritten (a := wbBase) hlow hhigh hunwritten
    refine ⟨x, ?_, hx⟩
    simp [exec, execDecrypt, performDecrypt, hbusy, Nat.not_lt.2 hn, State.wbWords, hr]
  case read =>
    intro s addr rest a hidle hi haligned hbuffer hlow hhigh hunwritten
    obtain ⟨x, hr, hx⟩ := s.mem.readWord_of_unwritten hlow hhigh hunwritten
    refine ⟨x, ?_, hx⟩
    rw [step_of_read hi, hostRead_of_buffer _ haligned hbuffer]
    simp [readBuffer, hidle, hr]

end Sys2Proof.Machine
end

section
/-! PROOF. Host accesses by address (20_memory.md R51 to R60): which of them end with a bus error, what an idle access
to RB, WB and OBS reads and stores, and how the port answers while a command is in progress. -/

namespace Sys2Proof.Machine

open Host (Outcome)

/-! ### The address map -/

/-- RB, WB and OBS, the regions that hold bytes (20_memory.md R51). -/
theorem regionOf_buffer_iff (a : Nat) :
    (regionOf a = .rb ↔ a < 0x40) ∧ (regionOf a = .wb ↔ 0x80 ≤ a ∧ a < 0xBC)
      ∧ (regionOf a = .obs ↔ 0x100 ≤ a ∧ a < 0x3C0) := by
  unfold regionOf
  split_ifs <;> simp <;> omega

/-- The regions of the registers. -/
theorem regionOf_register_iff (a : Nat) :
    (regionOf a = .cmd ↔ 0x40 ≤ a ∧ a < 0x44) ∧ (regionOf a = .status ↔ 0x44 ≤ a ∧ a < 0x48)
      ∧ (regionOf a = .config ↔ 0x48 ≤ a ∧ a < 0x4C) ∧ (regionOf a = .ctrl ↔ 0x4C ≤ a ∧ a < 0x50) := by
  unfold regionOf
  split_ifs <;> simp <;> omega

theorem regionOf_reserved_iff (a : Nat) :
    regionOf a = .reserved ↔ (0x50 ≤ a ∧ a < 0x80) ∨ (0xBC ≤ a ∧ a < 0x100) ∨ 0x3C0 ≤ a := by
  unfold regionOf
  split_ifs <;> simp <;> omega

/-! ### Bus errors -/

/-- An access that raises BusError whether it reads or writes: a wrong width, a misaligned or a reserved address
(20_memory.md R52 to R54). -/
def BadAccess (addr : BitVec 12) (width : BusWidth) : Prop :=
  accessFits addr width = false ∨ regionOf addr.toNat = .reserved

theorem badAccess_iff (addr : BitVec 12) (width : BusWidth) :
    BadAccess addr width ↔ width ≠ .w32 ∨ addr.toNat % 4 ≠ 0 ∨ (0x050 ≤ addr.toNat ∧ addr.toNat < 0x080)
      ∨ (0x0BC ≤ addr.toNat ∧ addr.toNat < 0x100) ∨ 0x3C0 ≤ addr.toNat := by
  rw [BadAccess, regionOf_reserved_iff, ← Bool.not_eq_true, accessFits_iff, not_and_or, or_assoc]

theorem hostRead_of_badAccess {addr : BitVec 12} {width : BusWidth} (s : State) (h : BadAccess addr width) :
    hostRead addr width s = .next (s.raiseBusError addr) := by
  rcases h with hfits | hregion
  · simp [hostRead, hfits]
  · simp [hostRead, hregion]

theorem hostWrite_of_badAccess {addr : BitVec 12} {width : BusWidth} (v : Word) (s : State)
    (h : BadAccess addr width ∨ regionOf addr.toNat = .obs) :
    hostWrite addr width v s = .next (s.raiseBusError addr) := by
  rcases h with (hfits | hregion) | hregion
  · simp [hostWrite, hfits]
  · simp [hostWrite, hregion]
  · simp [hostWrite, hregion]

theorem readBuffer_response {a : Nat} {s t : State} (h : readBuffer a s = .next t) : ∃ w, t.response = .data w := by
  rcases readBuffer_next a s t h with ⟨-, rfl⟩ | ⟨-, w, -, rfl⟩
  · exact ⟨_, rfl⟩
  · exact ⟨w, rfl⟩

/-- A read with no cause for an error response returns a word (60_exceptions.md R185). -/
theorem hostRead_response {addr : BitVec 12} {width : BusWidth} {s t : State} (hgood : ¬ BadAccess addr width)
    (h : hostRead addr width s = .next t) : ∃ w, t.response = .data w := by
  obtain ⟨hfits, hregion⟩ := not_or.1 hgood
  rw [Bool.not_eq_false] at hfits
  rw [hostRead, if_pos hfits] at h
  cases hr : regionOf addr.toNat <;> simp only [hr] at h
  case reserved => exact absurd hr hregion
  case rb | wb | obs => exact readBuffer_response h
  case cmd | status | config | ctrl =>
    obtain rfl := Outcome.next.inj h
    exact ⟨_, rfl⟩

@[simp] theorem writeBuffer_response (a : Nat) (v : Word) (s : State) : (writeBuffer a v s).response = .written := by
  unfold writeBuffer
  split <;> rfl

@[simp] theorem writeConfig_response (v : Word) (s : State) : (writeConfig v s).response = .written := by
  unfold writeConfig
  split <;> rfl

/-- A write of CMD completes, dropped, rejected or accepted. -/
theorem writeCmd_response {v : Word} {s t : State} (h : writeCmd v s = .next t) : t.response = .written := by
  cases hbusy : s.status.busy with
  | true =>
    simp only [writeCmd, hbusy, if_true, Outcome.next.injEq] at h
    rw [← h, State.dropWrite_response]
  | false =>
    rw [writeCmd_idle v s hbusy, Outcome.next.injEq] at h
    rw [← h, State.present_response, State.setResponse_response]

/-- A write with no cause for an error response completes (60_exceptions.md R185). -/
theorem hostWrite_response {addr : BitVec 12} {width : BusWidth} {v : Word} {s t : State}
    (hgood : ¬ BadAccess addr width) (hobs : regionOf addr.toNat ≠ .obs) (h : hostWrite addr width v s = .next t) :
    t.response = .written := by
  obtain ⟨hfits, hregion⟩ := not_or.1 hgood
  rw [Bool.not_eq_false] at hfits
  rw [hostWrite, if_pos hfits] at h
  cases hr : regionOf addr.toNat <;> simp only [hr] at h
  case reserved => exact absurd hr hregion
  case obs => exact absurd hr hobs
  case cmd => exact writeCmd_response h
  case rb | wb | config | status | ctrl =>
    obtain rfl := Outcome.next.inj h
    simp

/-- Settles O34: a bad access answers `State.raiseBusError`, and every other one answers a word or a completed write. -/
theorem busErrorExactlyOnBadAccess : Obligations.BusErrorExactlyOnBadAccess := by
  intro s addr width v rest
  dsimp only
  rw [← badAccess_iff, ← (regionOf_buffer_iff addr.toNat).2.2]
  refine ⟨fun hi => ?read, fun hi => ?write⟩
  case read =>
    rw [step_of_read hi]
    refine ⟨hostRead_of_badAccess _, fun hgood t x ht => ?_⟩
    obtain ⟨w, hw⟩ := hostRead_response hgood ht
    simp [hw]
  case write =>
    rw [step_of_write hi]
    refine ⟨hostWrite_of_badAccess v _, fun hgood hobs t x ht => ?_⟩
    simp [hostWrite_response hgood hobs ht]

/-! ### Bytes and words just stored -/

/-- The lanes of a bus word, by arithmetic (20_memory.md R56). -/
theorem wordBytes_getElem? (w : Word) (j : Nat) (hj : j < 4) :
    (wordBytes w)[j]? = some (BitVec.ofNat 8 (w.toNat / 256 ^ j)) := by
  have lane : ∀ k, w.extractLsb' k 8 = BitVec.ofNat 8 (w.toNat / 2 ^ k) := fun k => by
    rw [BitVec.extractLsb', Nat.shiftRight_eq_div_pow]
  interval_cases j <;> simp [wordBytes, lane]

theorem Memory.read?_writeWords_singleton (m : Memory) (a : Nat) (w : Word) (j : Nat) (hj : j < 4) :
    (m.writeWords a [w]).read? (a + j) = some (BitVec.ofNat 8 (w.toNat / 256 ^ j)) := by
  rw [← wordBytes_getElem? w j hj, Memory.writeWords, List.flatMap_singleton, Memory.read?_writeBlock,
    if_pos (by rw [length_wordBytes]; omega), Nat.add_sub_cancel_left]

theorem Memory.readWord_writeWords_singleton (m : Memory) (a : Nat) (w : Word) :
    (m.writeWords a [w]).readWord a = .ok w :=
  Memory.readWord_of_readWords (m.readWords_writeWords_same a [w]) 0 Nat.one_pos

/-- Four written bytes read as their word, lowest address first. -/
theorem Memory.readWord_of_bytes {m : Memory} {a : Nat} {b0 b1 b2 b3 : Byte} (h0 : m.read? a = some b0)
    (h1 : m.read? (a + 1) = some b1) (h2 : m.read? (a + 2) = some b2) (h3 : m.read? (a + 3) = some b3) :
    m.readWord a = .ok (b3 ++ b2 ++ b1 ++ b0) := by
  simp [Memory.readWord, Memory.readBlock, h0, h1, h2, h3, wordOfBytes]

/-! ### Idle accesses to the buffers -/

theorem step_read_buffer_idle {s : State} {a : Nat} {w : Word} {rest : List Input} (hidle : s.status.busy = false)
    (hi : s.inputs = .access (.read (BitVec.ofNat 12 a) .w32) :: rest) (haligned : a % 4 = 0)
    (hbuffer : a < 0x40 ∨ (0x80 ≤ a ∧ a < 0xBC) ∨ (0x100 ≤ a ∧ a < 0x3C0)) (hw : s.mem.readWord a = .ok w) :
    step s = .next { s with inputs := rest, response := .data w } := by
  have ha : (BitVec.ofNat 12 a).toNat = a := by rw [BitVec.toNat_ofNat]; omega
  rw [step_of_read hi, hostRead_of_buffer _ (by rwa [ha]) (by rwa [ha]), ha]
  simp only [readBuffer, State.setInputs_status, State.setInputs_mem, hidle, hw]
  rfl

theorem hostWrite_of_buffer {addr : BitVec 12} (v : Word) (s : State) (haligned : addr.toNat % 4 = 0)
    (hbuffer : addr.toNat < 0x40 ∨ (0x80 ≤ addr.toNat ∧ addr.toNat < 0xBC)) :
    hostWrite addr .w32 v s = .next (writeBuffer addr.toNat v s) := by
  obtain ⟨hrb, hwb, -⟩ := regionOf_buffer_iff addr.toNat
  rw [hostWrite, if_pos ((accessFits_iff addr .w32).2 ⟨rfl, haligned⟩)]
  rcases hbuffer with h | h
  · rw [hrb.2 h]
  · rw [hwb.2 h]

theorem step_write_buffer_idle {s : State} {a : Nat} {v : Word} {rest : List Input} (hidle : s.status.busy = false)
    (hi : s.inputs = .access (.write (BitVec.ofNat 12 a) .w32 v) :: rest) (haligned : a % 4 = 0)
    (hbuffer : a < 0x40 ∨ (0x80 ≤ a ∧ a < 0xBC)) :
    step s = .next { s with mem := s.mem.writeWords a [v], inputs := rest, response := .written } := by
  have ha : (BitVec.ofNat 12 a).toNat = a := by rw [BitVec.toNat_ofNat]; omega
  rw [step_of_write hi, hostWrite_of_buffer v _ (by rwa [ha]) (by rwa [ha]), ha]
  simp only [writeBuffer, State.setInputs_status, hidle]
  rfl

/-- Settles O35: a bus word of RB is its four bytes, lowest address first, both ways. -/
theorem reportBufferLanes : Obligations.ReportBufferLanes := by
  intro s k v rest hk hidle
  refine ⟨fun hi => ?write, fun b0 b1 b2 b3 hi h0 h1 h2 h3 => ?read⟩
  case write =>
    refine ⟨_, step_write_buffer_idle hidle hi (by omega) (by omega), fun j hj => ?_, fun a ha => ?_, rfl⟩
    · rw [State.rb?, rbBase, Nat.zero_add]
      exact Memory.read?_writeWords_singleton _ _ _ _ hj
    · exact Memory.read?_writeWords_of_outside _ _ _ _ ha
  case read =>
    simp only [State.rb?, rbBase, Nat.zero_add] at h0 h1 h2 h3
    exact step_read_buffer_idle hidle hi (by omega) (by omega) (Memory.readWord_of_bytes h0 h1 h2 h3)

/-- Settles O36: WB is read and written by whole words. -/
theorem wordBufferAccess : Obligations.WordBufferAccess := by
  intro s i v rest hlt hidle
  refine ⟨fun hi => ?write, fun hi hw => ?read⟩
  case write =>
    exact ⟨_, step_write_buffer_idle hidle hi (by omega) (by omega), Memory.readWord_writeWords_singleton _ _ _,
      fun a ha => Memory.read?_writeWords_of_outside _ _ _ _ ha, rfl⟩
  case read => exact step_read_buffer_idle hidle hi (by omega) (by omega) hw

/-- The OBS image past its entries is cleared (41_frame_decoder.md R124). -/
theorem obsImage_getD_of_past_entries (l : List Observation) (i : Nat) (h : 8 * l.length ≤ i) :
    (obsImage l).getD i 0#32 = 0#32 := by
  rw [obsImage, List.getD_eq_getElem?_getD, List.getElem?_take]
  split
  · rw [List.getElem?_append_right (by rwa [length_flatMap_encode]), List.getElem?_replicate]
    split <;> rfl
  · rfl

/-- Settles O37: an idle read returns the stored word, and OBS after a DECODE is the image of its observations. -/
theorem observationBufferReads : Obligations.ObservationBufferReads := by
  refine ⟨fun s j m w rest hj hm hidle hi hw => ?read, fun s t j m hbusy ht hcount hj hm => ?cleared⟩
  case read => exact step_read_buffer_idle hidle hi (by omega) (by omega) hw
  case cleared =>
    obtain ⟨-, r, -, -, -, hobs, hlength⟩ := execDecode_result s t hbusy ht
    have hle := length_decodedList_le s.config s.layout r
    rw [hlength, BitVec.toNat_ofNat, Nat.mod_eq_of_lt (by omega)] at hcount
    rw [State.obs_of_readWords hobs j m hj hm, obsImage_getD_of_past_entries _ _ (by omega)]

/-! ### Accesses while busy -/

theorem hostWrite_busy_drops {addr : BitVec 12} (v : Word) {s : State} (hbusy : s.status.busy = true)
    (haligned : addr.toNat % 4 = 0)
    (hregion : regionOf addr.toNat = .rb ∨ regionOf addr.toNat = .wb ∨ regionOf addr.toNat = .config
      ∨ regionOf addr.toNat = .cmd) :
    hostWrite addr .w32 v s = .next s.dropWrite := by
  rw [hostWrite, if_pos ((accessFits_iff addr .w32).2 ⟨rfl, haligned⟩)]
  rcases hregion with hr | hr | hr | hr <;> rw [hr] <;> simp [writeBuffer, writeConfig, writeCmd, hbusy]

/-- Settles O43: RB, WB, CONFIG and CMD drop the write, and STATUS and CTRL do not look at BUSY. -/
theorem busyWriteIsDroppedWithOverrun : Obligations.BusyWriteIsDroppedWithOverrun := by
  intro s addr v rest
  dsimp only
  intro hbusy hi haligned
  obtain ⟨hrb, hwb, -⟩ := regionOf_buffer_iff addr.toNat
  obtain ⟨hcmd, -, hconfig, -⟩ := regionOf_register_iff addr.toNat
  rw [step_of_write hi]
  refine ⟨fun ha => ?dropped, fun ha => ?status, fun ha => ?ctrl⟩
  case dropped =>
    have hregion : regionOf addr.toNat = .rb ∨ regionOf addr.toNat = .wb ∨ regionOf addr.toNat = .config
        ∨ regionOf addr.toNat = .cmd := by
      rw [hrb, hwb, hcmd, hconfig]
      omega
    exact hostWrite_busy_drops v hbusy haligned hregion
  case status =>
    obtain rfl : addr = 0x044#12 := BitVec.eq_of_toNat_eq ha
    exact ⟨_, hostWrite_status v _, hbusy, fun hdone => by simp [hdone], fun hovr => by simp [hovr]⟩
  case ctrl =>
    obtain rfl : addr = 0x04C#12 := BitVec.eq_of_toNat_eq ha
    exact ⟨_, hostWrite_ctrl v _, rfl⟩

theorem readBuffer_busy (a : Nat) {s : State} (hbusy : s.status.busy = true) :
    readBuffer a s = .next s.drawRead := if_pos hbusy

/-- Settles O44: the buffers answer a draw, and the registers do not look at BUSY. -/
theorem busyReadOfBufferIsUnspecified : Obligations.BusyReadOfBufferIsUnspecified := by
  intro s addr rest
  dsimp only
  intro hbusy hi haligned
  rw [step_of_read hi]
  refine ⟨fun ha => ?buffer, fun ha => ?status, fun ha => ?config, fun ha => ?ctrl⟩
  case buffer =>
    rw [hostRead_of_buffer _ haligned ha]
    exact readBuffer_busy addr.toNat hbusy
  case status =>
    obtain rfl : addr = 0x044#12 := BitVec.eq_of_toNat_eq ha
    rfl
  case config =>
    obtain rfl : addr = 0x048#12 := BitVec.eq_of_toNat_eq ha
    rfl
  case ctrl =>
    obtain rfl : addr = 0x04C#12 := BitVec.eq_of_toNat_eq ha
    rfl

/-- Settles O45: a read that answers answered an error response, a word or a draw. -/
theorem hostReadsHaveNoSideEffect : Obligations.HostReadsHaveNoSideEffect := by
  intro s t addr width rest hi ht
  rw [step_of_read hi] at ht
  rcases hostRead_next addr width _ t ht with rfl | ⟨w, rfl⟩ | ⟨-, rfl⟩ <;> rfl

/-- While busy no read looks at the buffers, so none meets an unwritten cell (20_memory.md R59). -/
theorem hostRead_busy_answers (addr : BitVec 12) (width : BusWidth) {s : State} (hbusy : s.status.busy = true) :
    ∃ t, hostRead addr width s = .next t := by
  unfold hostRead
  split
  · cases regionOf addr.toNat
    case rb | wb | obs => exact ⟨_, readBuffer_busy addr.toNat hbusy⟩
    case cmd | status | config | ctrl | reserved => exact ⟨_, rfl⟩
  · exact ⟨_, rfl⟩

/-- Settles O46: a read has no side effect, and of the effects of a write those that touch the command need BUSY = 0. -/
theorem hostCannotDisturbBusyCommand : Obligations.HostCannotDisturbBusyCommand := by
  intro s x rest hbusy hi
  have hnot_idle : (s.setInputs rest).status.busy ≠ false := by simp [hbusy]
  cases x with
  | read addr width =>
    obtain ⟨t, ht⟩ := hostRead_busy_answers addr width (s := s.setInputs rest) hbusy
    refine ⟨t, (step_of_read hi).trans ht, ?_⟩
    rcases hostRead_next addr width _ t ht with rfl | ⟨w, rfl⟩ | ⟨-, rfl⟩ <;> simp [hbusy]
  | write addr width v =>
    obtain ⟨t, ht, heffect⟩ := hostWrite_effect addr width v (s.setInputs rest)
    refine ⟨t, (step_of_write hi).trans ht, ?_⟩
    cases heffect with
    | stored idle | config idle | command idle => exact absurd idle hnot_idle
    | busError | dropped busy | status | ctrl => simp [hbusy]

end Sys2Proof.Machine
end

section
/-! PROOF. A command in progress completes (42_commands.md R163): the engine's turn ends it when the cells it reads are
written, and until then the host cannot disturb it. -/

namespace Sys2Proof.Machine

/-- The cells that the latched command reads are written (70_reset_and_hazards.md R204, R205). -/
def State.CommandCellsWritten (s : State) : Prop :=
  ∀ cmd, s.lc = some cmd →
    (decodeCmd cmd = some .decode → ∀ a, a < 0x40 → (s.mem.read? a).isSome)
    ∧ (∀ n br, decodeCmd cmd = some (.decrypt n br) →
        ∀ a, 0x80 ≤ a → a < 0x80 + 4 * n.toNat → (s.mem.read? a).isSome)

/-- Only the latched command and the buffers decide it. -/
theorem State.CommandCellsWritten.congr {s t : State} (h : s.CommandCellsWritten) (hlc : t.lc = s.lc)
    (hmem : t.mem = s.mem) : t.CommandCellsWritten := by
  unfold State.CommandCellsWritten
  rw [hlc, hmem]
  exact h

theorem State.report_of_written {s : State} (h : ∀ a, a < 0x40 → (s.mem.read? a).isSome) :
    ∃ r, s.report = .ok r := by
  cases hr : s.report with
  | ok r => exact ⟨r, rfl⟩
  | error f =>
    obtain ⟨x, hx, hnone, -⟩ := s.report_error f hr
    have hsome := h x hx
    rw [State.rb?, rbBase, Nat.zero_add] at hnone
    simp [hnone] at hsome

theorem State.wbWords_of_written {s : State} {n : Nat}
    (h : ∀ a, 0x80 ≤ a → a < 0x80 + 4 * n → (s.mem.read? a).isSome) : ∃ ws, s.wbWords n = .ok ws := by
  cases hws : s.wbWords n with
  | ok ws => exact ⟨ws, rfl⟩
  | error f =>
    obtain ⟨x, hlow, hhigh, hnone, -⟩ := s.mem.readWords_error wbBase n f hws
    have hsome := h x hlow hhigh
    simp [hnone] at hsome

/-- The engine's turn performs the latched instruction. -/
theorem engineTurn_busy {s : State} {cmd : Word} {i : Instr} (hbusy : s.status.busy = true) (hlc : s.lc = some cmd)
    (hd : decodeCmd cmd = some i) : engineTurn s = exec i s := by
  simp only [engineTurn, hbusy, if_true, engineStep, hlc, hd]

theorem State.Lawful.engineTurn_completes {s : State} (h : s.Lawful) (hbusy : s.status.busy = true)
    (hwritten : s.CommandCellsWritten) :
    ∃ t, engineTurn s = .next t ∧ t.status.busy = false ∧ t.status.done = true := by
  obtain ⟨cmd, hlc, hcheck⟩ := h.latched hbusy
  obtain ⟨hdecode, hdecrypt⟩ := hwritten cmd hlc
  rcases decodeCmd_of_commandCheck s.config cmd hcheck with ⟨n, br, hd, hn⟩ | ⟨hd, hw⟩
  · obtain ⟨ws, hws⟩ := State.wbWords_of_written (hdecrypt n br hd)
    exact ⟨_, (engineTurn_busy hbusy hlc hd).trans (execDecrypt_busy n br s ws hbusy hn hws), rfl, rfl⟩
  · obtain ⟨r, hr⟩ := State.report_of_written (hdecode hd)
    exact ⟨_, (engineTurn_busy hbusy hlc hd).trans (execDecode_busy s r hbusy hw hr), rfl, rfl⟩

theorem core_run_succ {s t : State} (k : Nat) (h : step s = .next t) : core.run (k + 1) s = core.run k t := by
  have hcore : core.step s = .next t := h
  simp only [Host.Core.run, hcore]

/-- Settles O58, by induction on the pending events: an engine turn completes the command, and a host access leaves it
as it was with one event less to come. -/
theorem acceptedCommandEventuallyCompletes : Obligations.AcceptedCommandEventuallyCompletes := by
  intro s hlawful hbusy hnoReset hwritten
  generalize hi : s.inputs = events at hnoReset ⊢
  induction events generalizing s with
  | nil =>
    obtain ⟨t, ht, hdone⟩ := hlawful.engineTurn_completes hbusy hwritten
    have hstep : step s = .next t := by simp only [step, hi, ht]
    exact ⟨1, t, Nat.le_refl 1, core_run_succ 0 hstep, hdone⟩
  | cons event rest ih =>
    cases event with
    | reset => exact absurd rfl (hnoReset .reset List.mem_cons_self)
    | engine =>
      obtain ⟨t, ht, hdone⟩ := (hlawful.setInputs rest).engineTurn_completes hbusy hwritten
      have hstep : step s = .next t := by simp only [step, hi, ht]
      exact ⟨1, t, Nat.le_add_left 1 _, core_run_succ 0 hstep, hdone⟩
    | access x =>
      obtain ⟨u, hu, hinputs, hlc, hbusy', hmem, -⟩ := hostCannotDisturbBusyCommand s x rest hbusy hi
      obtain ⟨k, t, hk, ht, hdone⟩ := ih u (stepKeepsStateLawful s u hlawful hu) hbusy'
        (State.CommandCellsWritten.congr hwritten hlc hmem) hinputs (fun y hy => hnoReset y (List.mem_cons_of_mem _ hy))
      exact ⟨k + 1, t, Nat.succ_le_succ hk, (core_run_succ k hu).trans ht, hdone⟩

end Sys2Proof.Machine
end

section
/-! PROOF. The encodings (30_encoding.md R80 to R85) by arithmetic on the word: the command decoder's two tests, what
each outcome of it says of the word, and the tag decoder; from these, that the decoder reads back every encoding. -/

namespace Sys2Proof

open Machine

/-! ### The command word -/

/-- A field of a word, by arithmetic. -/
theorem extractLsb'_eq_iff {w : Nat} (x : BitVec w) (start len : Nat) (y : BitVec len) :
    x.extractLsb' start len = y ↔ x.toNat / 2 ^ start % 2 ^ len = y.toNat := by
  rw [← BitVec.toNat_inj, BitVec.extractLsb'_toNat, Nat.shiftRight_eq_div_pow]

theorem decryptWord_toNat (n : BitVec 4) (br : BitVec 8) :
    (decryptWord n br).toNat = 256 * br.toNat + 16 * n.toNat + 1 := by
  simp only [decryptWord, toNat_append_eq_add, BitVec.toNat_ofNat]
  omega

/-- The decoder's test for DECRYPT (30_encoding.md R83). -/
theorem decryptFields_iff (cmd : Word) :
    (cmd.extractLsb' 0 4 = 0x1#4 ∧ cmd.extractLsb' 16 16 = 0#16)
      ↔ cmd.toNat % 16 = 1 ∧ cmd.toNat / 2 ^ 16 = 0 := by
  have hword := cmd.isLt
  simp only [extractLsb'_eq_iff, BitVec.toNat_ofNat]
  omega

/-- The decoder's test for DECODE: OP and the reserved bits leave one word (30_encoding.md R83). -/
theorem decodeFields_iff (cmd : Word) :
    (cmd.extractLsb' 0 4 = 0x2#4 ∧ cmd.extractLsb' 4 28 = 0#28) ↔ cmd.toNat = 2 := by
  have hword := cmd.isLt
  simp only [extractLsb'_eq_iff, BitVec.toNat_ofNat]
  omega

/-- The command decoder with its tests by arithmetic on the word (30_encoding.md R83). -/
theorem decodeCmd_eq (cmd : Word) :
    decodeCmd cmd
      = if cmd.toNat % 16 = 1 ∧ cmd.toNat / 2 ^ 16 = 0 then
          some (.decrypt (cmd.extractLsb' 4 4) (cmd.extractLsb' 8 8))
        else if cmd.toNat = 2 then some .decode else none := by
  rw [decodeCmd, if_congr (decryptFields_iff cmd) rfl (if_congr (decodeFields_iff cmd) rfl rfl)]

theorem decodeCmd_eq_decrypt_iff (cmd : Word) (n : BitVec 4) (br : BitVec 8) :
    decodeCmd cmd = some (.decrypt n br)
      ↔ cmd.toNat % 16 = 1 ∧ cmd.toNat / 2 ^ 16 = 0 ∧ n.toNat = cmd.toNat / 16 % 16
        ∧ br.toNat = cmd.toNat / 256 % 256 := by
  rw [decodeCmd_eq]
  split
  · rename_i hfields
    simp only [Option.some.injEq, Instr.decrypt.injEq, extractLsb'_eq_iff]
    omega
  · rename_i hfields
    refine iff_of_false ?_ fun h => hfields ⟨h.1, h.2.1⟩
    split <;> simp

theorem decodeCmd_eq_decode_iff (cmd : Word) : decodeCmd cmd = some .decode ↔ cmd.toNat = 2 := by
  rw [decodeCmd_eq]
  split
  · exact iff_of_false (by simp) (by omega)
  · simp

theorem decodeCmd_eq_none_iff (cmd : Word) :
    decodeCmd cmd = none ↔ ¬ (cmd.toNat % 16 = 1 ∧ cmd.toNat / 2 ^ 16 = 0) ∧ cmd.toNat ≠ 2 := by
  rw [decodeCmd_eq]
  split
  · rename_i hfields
    exact iff_of_false (by simp) fun h => h.1 hfields
  · rename_i hfields
    rw [and_iff_right hfields, ite_eq_right_iff]
    simp

/-- The encoder of DECRYPT is undone by the decoder, every operand at every value. -/
theorem decodeCmd_decryptWord (n : BitVec 4) (br : BitVec 8) :
    decodeCmd (decryptWord n br) = some (.decrypt n br) := by
  have hn := n.isLt
  have hbr := br.isLt
  rw [decodeCmd_eq_decrypt_iff, decryptWord_toNat]
  omega

/-- Settles O2: each outcome of the decoder by arithmetic on the word; that it reads the operands back keeps the words
of different operands apart. -/
theorem commandDecoderIsExact : Obligations.CommandDecoderIsExact := by
  refine ⟨decodeCmd_eq_decrypt_iff, decodeCmd_eq_decode_iff, decodeCmd_eq_none_iff, fun n n' br br' => ?_⟩
  refine ⟨decodeCmd_decryptWord n br, fun hwords => ?_⟩
  have hread := decodeCmd_decryptWord n br
  rw [hwords, decodeCmd_decryptWord] at hread
  simpa [eq_comm] using hread

/-! ### The report tag -/

/-- A tag of neither frame selects FRAME_OTHER (30_encoding.md R85). -/
theorem decodeTag_of_other (tag : Byte) (hdual : tag ≠ tagDual) (hhmd : tag ≠ tagHmd) :
    decodeTag tag = .frameOther tag := by
  rw [decodeTag, if_neg hdual, if_neg hhmd]

theorem Instr.wellFormed_frameOther_iff (tag : Byte) :
    (Instr.frameOther tag).wellFormed = true ↔ tag ≠ tagDual ∧ tag ≠ tagHmd := by
  simp [Instr.wellFormed, tagDual, tagHmd]

/-! ### Table words -/

/-- 32 bits are a command word. -/
theorem decodeTableWord_command (cmd : Word) : decodeTableWord 32 cmd.toNat = decodeCmd cmd := by
  rw [decodeTableWord, if_pos rfl, BitVec.ofNat_toNat, BitVec.setWidth_eq]

/-- 8 bits are a report tag. -/
theorem decodeTableWord_tag (tag : Byte) : decodeTableWord 8 tag.toNat = some (decodeTag tag) := by
  rw [decodeTableWord, if_neg (by decide), if_pos rfl, BitVec.ofNat_toNat, BitVec.setWidth_eq]

/-- Settles O1, instruction by instruction: the commands through the command decoder, the frames through the tag
decoder, where well-formedness keeps FRAME_OTHER off the two named tags. -/
theorem decodeOfEncodeReturnsInstruction : Obligations.DecodeOfEncodeReturnsInstruction := by
  intro i hwf
  cases i with
  | decrypt n br => exact (decodeTableWord_command _).trans (decodeCmd_decryptWord n br)
  | decode => exact (decodeTableWord_command _).trans ((decodeCmd_eq_decode_iff _).2 rfl)
  | frameA5 => exact decodeTableWord_tag tagDual
  | frameA6 => exact decodeTableWord_tag tagHmd
  | frameOther tag =>
    obtain ⟨hdual, hhmd⟩ := (Instr.wellFormed_frameOther_iff tag).1 hwf
    exact (decodeTableWord_tag tag).trans (congrArg some (decodeTag_of_other tag hdual hhmd))

/-- Settles O3: each word is closed: two DECRYPTs, DECODE, two words one reserved bit away from DECODE, three tags. -/
theorem writtenOutWordsDecode : Obligations.WrittenOutWordsDecode := by
  unfold Obligations.WrittenOutWordsDecode
  decide

/-! ### Layout tables -/

/-- Settles O60: the checks are the bounds, field by field, and B_VAL + 0x36 + 1 ≤ 64 is B_VAL ≤ 9. -/
theorem layoutAdmittedExactlyWithinBounds : Obligations.LayoutAdmittedExactlyWithinBounds := by
  intro t
  simp only [LayoutTable.admitted, LayoutTable.controllerFieldFits, LayoutTable.recordFieldFits, Bool.and_eq_true,
    decide_eq_true_eq, List.forall_mem_cons, List.not_mem_nil, false_imp_iff, implies_true, and_true]
  omega

end Sys2Proof
end

section
/-! PROOF. The fields of a report (30_encoding.md R88, R89): that the reads of every frame stay inside its 64 bytes, and
the conversions of positions and quaternions by arithmetic on the bytes (41_frame_decoder.md R140, R141). -/

namespace Sys2Proof.Machine

/-! ### Reads inside a report do not see what follows it -/

theorem byteAt_append_of_lt {r : List Byte} (x : List Byte) {i : Nat} (h : i < r.length) :
    byteAt (r ++ x) i = byteAt r i :=
  List.getD_append r x 0#8 i h

section
variable {r : List Byte} (x : List Byte)

theorem h16_append {a : Nat} (h : a + 2 ≤ r.length) : h16 (r ++ x) a = h16 r a := by
  rw [h16, h16, byteAt_append_of_lt x (by omega), byteAt_append_of_lt x (by omega)]

theorem posAt_append (zu : Bool) {a : Nat} (h : a + 6 ≤ r.length) : posAt zu (r ++ x) a = posAt zu r a := by
  rw [posAt, posAt, h16_append x (by omega), h16_append x (by omega), h16_append x (by omega)]

theorem quatAt_append {a : Nat} (h : a + 8 ≤ r.length) : quatAt (r ++ x) a = quatAt r a := by
  rw [quatAt, quatAt, h16_append x (by omega), h16_append x (by omega), h16_append x (by omega),
    h16_append x (by omega)]

theorem versionOk_append {b : Nat} (h : b + 2 ≤ r.length) : versionOk (r ++ x) b = versionOk r b := by
  rw [versionOk, versionOk, byteAt_append_of_lt x (by omega), byteAt_append_of_lt x (by omega)]

/-- A controller record reads only the L_C bytes from its base on (30_encoding.md R88 clause 2). -/
theorem controllerRecord_append (cfg : ConfigReg) (lay : Layout) (c : Fin 2) {b : Nat}
    (h : b + lay.table.lC ≤ r.length) :
    controllerRecord cfg lay.table (r ++ x) c b = controllerRecord cfg lay.table r c b := by
  obtain ⟨hlC, hpos, hquat, hbytes, -⟩ := (layoutAdmittedExactlyWithinBounds lay.table).1 lay.ok
  simp only [List.forall_mem_cons] at hbytes
  obtain ⟨hbtn, htx, hty, hbat, htrig, -⟩ := hbytes
  rw [controllerRecord, controllerRecord, versionOk_append x (by omega)]
  simp only [controllerFields]
  rw [posAt_append x _ (by omega), quatAt_append x (by omega), byteAt_append_of_lt x (by omega),
    byteAt_append_of_lt x (by omega), byteAt_append_of_lt x (by omega), byteAt_append_of_lt x (by omega),
    byteAt_append_of_lt x (by omega)]

/-- R88 clause 3. -/
theorem headsetRecord_append (cfg : ConfigReg) (lay : Layout) (hr : r.length = 64) :
    headsetRecord cfg lay.table (r ++ x) hsBase = headsetRecord cfg lay.table r hsBase := by
  obtain ⟨-, -, -, -, hhome, hpos, hquat, -⟩ := (layoutAdmittedExactlyWithinBounds lay.table).1 lay.ok
  have hbase : hsBase = 0x15 := rfl
  rw [headsetRecord, headsetRecord, versionOk_append x (by omega), posAt_append x _ (by omega),
    posAt_append x _ (by omega), quatAt_append x (by omega)]

/-- R88 clause 4. -/
theorem baseRecord_append (lay : Layout) (hr : r.length = 64) :
    baseRecord lay.table (r ++ x) bsBase = baseRecord lay.table r bsBase := by
  obtain ⟨-, -, -, -, -, -, -, hval⟩ := (layoutAdmittedExactlyWithinBounds lay.table).1 lay.ok
  have hbase : bsBase = 0x36 := rfl
  rw [baseRecord, baseRecord, versionOk_append x (by omega), byteAt_append_of_lt x (by omega)]

end

/-- Settles O27: each record reads inside its own bytes, and both controller records, the second of which ends at byte
63, the headset record and the base-station record lie inside the report. -/
theorem fieldReadsStayInsideReport : Obligations.FieldReadsStayInsideReport := by
  intro cfg lay r x hr
  obtain ⟨⟨hlow, hhigh⟩, -⟩ := (layoutAdmittedExactlyWithinBounds lay.table).1 lay.ok
  constructor
  · rw [frameA5, frameA5, controllerRecord_append x cfg lay 0 (by simp only [ctrl0Base]; omega),
      controllerRecord_append x cfg lay 1 (by simp only [ctrl1Base]; omega)]
  · rw [frameA6, frameA6, headsetRecord_append x cfg lay hr, baseRecord_append x lay hr]

/-! ### Conversions -/

theorem h16_toNat (r : List Byte) (a : Nat) :
    (h16 r a).toNat = 256 * (byteAt r a).toNat + (byteAt r (a + 1)).toNat :=
  toNat_append_eq_add _ _

/-- Two's complement on 16 bits, by arithmetic (00_scope.md R9). -/
theorem s16_eq (v : Half) : s16 v = if (v.toNat : Int) < 32768 then (v.toNat : Int) else (v.toNat : Int) - 65536 := by
  have hsign : v.getLsbD 15 = decide (32768 ≤ v.toNat) := by
    have hv := v.isLt
    rw [BitVec.getLsbD, Nat.testBit_eq_decide_div_mod_eq]
    exact decide_eq_decide.2 (by omega)
  rw [s16, hsign]
  simp only [decide_eq_true_eq]
  split <;> split <;> omega

theorem s16_bounds (v : Half) : -32768 ≤ s16 v ∧ s16 v ≤ 32767 := by
  have hv := v.isLt
  rw [s16_eq]
  split <;> omega

/-- A signed field, by arithmetic on its two bytes (30_encoding.md R89). -/
theorem s16_h16 (r : List Byte) (a : Nat) :
    let u : Int := 256 * ((byteAt r a).toNat : Int) + ((byteAt r (a + 1)).toNat : Int)
    s16 (h16 r a) = if u < 32768 then u else u - 65536 := by
  rw [s16_eq, h16_toNat]
  push_cast
  rfl

theorem posAt_z_signed (r : List Byte) (a : Nat) : (posAt false r a).z = s16 (h16 r (a + 4)) := rfl

theorem posAt_z_unsigned (r : List Byte) (a : Nat) : (posAt true r a).z = ((h16 r (a + 4)).toNat : Int) := rfl

/-- Settles O28: X, Y and, when ZU = 0, Z are signed fields; when ZU = 1, Z is the field itself. -/
theorem positionConversion : Obligations.PositionConversion := by
  intro zu r a
  dsimp only
  have hx := s16_bounds (h16 r a)
  have hy := s16_bounds (h16 r (a + 2))
  have hz := s16_bounds (h16 r (a + 4))
  have hz' := (h16 r (a + 4)).isLt
  refine ⟨s16_h16 r a, s16_h16 r (a + 2), ?z, hx.1, hx.2, hy.1, hy.2, ?signed, ?unsigned⟩
  case z =>
    cases zu with
    | false =>
      rw [posAt_z_signed, if_neg Bool.false_ne_true]
      exact s16_h16 r (a + 4)
    | true =>
      rw [posAt_z_unsigned, if_pos rfl]
      exact_mod_cast h16_toNat r (a + 4)
  case signed =>
    rintro rfl
    rwa [posAt_z_signed]
  case unsigned =>
    rintro rfl
    rw [posAt_z_unsigned]
    omega

/-- Settles O29: each component is a signed field, at the offset the relabelling gives it, and Z is negated as an
integer. -/
theorem quaternionRelabelling : Obligations.QuaternionRelabelling := by
  intro r a
  dsimp only
  have hw := s16_bounds (h16 r a)
  have hi := s16_bounds (h16 r (a + 2))
  have hj := s16_bounds (h16 r (a + 4))
  have hk := s16_bounds (h16 r (a + 6))
  have hz := congrArg Neg.neg (s16_h16 r (a + 4))
  refine ⟨s16_h16 r a, s16_h16 r (a + 2), hz, s16_h16 r (a + 6), hw.1, hw.2, hi.1, hi.2, hk.1, hk.2,
    Int.neg_le_neg hj.2, Int.neg_le_neg hj.1, fun hcorner => ?corner⟩
  case corner =>
    rw [hcorner] at hz
    exact hz

end Sys2Proof.Machine
end

section
/-! PROOF. The header of an OBS entry by arithmetic (30_encoding.md R90, R91), and the words of BUTTON and ANALOG
entries (R94, R95). -/

namespace Sys2Proof.Machine

/-- The header is its fields side by side, nothing above PSCALED (30_encoding.md R90). -/
theorem entryHeader_toNat (kind : BitVec 4) (src : Source) (index : BitVec 8) (pscaled : Bool) :
    (entryHeader kind src index pscaled).toNat
      = 2 ^ 16 * pscaled.toNat + 2 ^ 8 * index.toNat + 2 ^ 4 * src.code.toNat + kind.toNat := by
  simp only [entryHeader, toNat_append_eq_add, BitVec.toNat_ofBool, BitVec.toNat_ofNat]
  omega

/-- Each field of a header reads back. -/
theorem entryHeader_fields (kind : BitVec 4) (src : Source) (index : BitVec 8) (pscaled : Bool) :
    let h := (entryHeader kind src index pscaled).toNat
    h / 2 ^ 17 = 0 ∧ h % 16 = kind.toNat ∧ h / 16 % 16 = src.code.toNat ∧ h / 256 % 256 = index.toNat
      ∧ h / 2 ^ 16 % 2 = if pscaled = true then 1 else 0 := by
  have hkind := kind.isLt
  have hsrc := src.code.isLt
  have hindex := index.isLt
  have hpscaled := pscaled.toNat_le
  have hflag : pscaled.toNat = if pscaled = true then 1 else 0 := by cases pscaled <;> rfl
  dsimp only
  rw [entryHeader_toNat, ← hflag]
  omega

/-- A BUTTON entry past its state word is empty (30_encoding.md R94). -/
theorem entryWord_button_eq_zero (src : Source) (index : Nat) (pressed : Bool) (m : Nat) (hlow : 2 ≤ m)
    (hhigh : m < 8) : entryWord (Observation.button src index pressed).encode m = 0#32 := by
  interval_cases m <;> rfl

/-- An ANALOG entry past its raw byte is empty (30_encoding.md R95). -/
theorem entryWord_analog_eq_zero (src : Source) (ch : Channel) (num : Int) (den : Nat) (raw : Byte) (m : Nat)
    (hlow : 4 ≤ m) (hhigh : m < 8) : entryWord (Observation.analog src ch num den raw).encode m = 0#32 := by
  interval_cases m <;> rfl

/-- Settles O33, entry kind by entry kind: the header's fields read back, and the other words are those of `encode`. -/
theorem entryHeaderFields : Obligations.EntryHeaderFields := by
  intro o h srcCode channelCode
  have hsrc : ∀ src : Source, src.code.toNat = srcCode src := fun src => by cases src <;> rfl
  have hchannel : ∀ ch : Channel, ch.code.toNat = channelCode ch := fun ch => by cases ch <;> rfl
  refine ⟨length_encode o, ?_⟩
  cases o with
  | pose src p pscaled q =>
    obtain ⟨hreserved, hkind, hsource, hindex, hpscaled⟩ := entryHeader_fields kindPose src 0#8 pscaled
    exact ⟨hreserved, hkind, hsource.trans (hsrc src), hindex, hpscaled⟩
  | home src p pscaled =>
    obtain ⟨hreserved, hkind, hsource, hindex, hpscaled⟩ := entryHeader_fields kindHome src 0#8 pscaled
    exact ⟨hreserved, hkind, hsource.trans (hsrc src), hindex, hpscaled⟩
  | button src index pressed =>
    obtain ⟨hreserved, hkind, hsource, hindex, hpscaled⟩ :=
      entryHeader_fields kindButton src (BitVec.ofNat 8 index) false
    exact ⟨hreserved, hkind, hsource.trans (hsrc src), hindex, hpscaled, rfl,
      entryWord_button_eq_zero src index pressed⟩
  | analog src ch num den raw =>
    obtain ⟨hreserved, hkind, hsource, hindex, hpscaled⟩ := entryHeader_fields kindAnalog src ch.code false
    refine ⟨hreserved, hkind, hsource.trans (hsrc src), hindex.trans (hchannel ch), hpscaled,
      fun hlow hhigh => toInt_tc32 num ⟨hlow, hhigh⟩, fun hden => ?den, ?raw,
      entryWord_analog_eq_zero src ch num den raw⟩
    case den => exact (BitVec.toNat_ofNat den 32).trans (Nat.mod_eq_of_lt hden)
    case raw => exact BitVec.toNat_setWidth_of_le (show 8 ≤ 32 by decide)

end Sys2Proof.Machine
end

section
/-! PROOF. DECODE on a written report (41_frame_decoder.md R120 to R126): the packed words by arithmetic on the report's
bytes, the decrypted bytes back in the report, and the entries of OBS; then the whole next state. -/

namespace Sys2Proof.Machine

/-! ### The words that are decrypted -/

/-- Word `i` of a run of bytes `u`, by arithmetic in the order BO (41_frame_decoder.md R121). -/
def wordValue (bo : Bool) (u : Nat → Nat) (i : Nat) : Nat :=
  if bo = true then u (4 * i) + 2 ^ 8 * u (4 * i + 1) + 2 ^ 16 * u (4 * i + 2) + 2 ^ 24 * u (4 * i + 3)
  else 2 ^ 24 * u (4 * i) + 2 ^ 16 * u (4 * i + 1) + 2 ^ 8 * u (4 * i + 2) + u (4 * i + 3)

/-- A run of `4 * k` bytes packs to `k` words, each by arithmetic on its bytes. -/
theorem packWords_eq_map_wordValue (bo : Bool) (k : Nat) (bs : List Byte) (h : bs.length = 4 * k) :
    packWords bo bs
      = (List.range k).map fun i => BitVec.ofNat 32 (wordValue bo (fun j => (byteAt bs j).toNat) i) := by
  refine List.ext_getElem (by simp [length_packWords bo k bs h]) fun i hi _ => ?_
  rw [length_packWords bo k bs h] at hi
  have hvalue : ((packWords bo bs).getD i 0#32).toNat = wordValue bo (fun j => (byteAt bs j).toNat) i :=
    packWords_getD_toNat bo bs i (by omega)
  rw [List.getD_eq_getElem _ _ (by rwa [length_packWords bo k bs h])] at hvalue
  rw [List.getElem_map, List.getElem_range, ← hvalue, BitVec.ofNat_toNat, BitVec.setWidth_eq]

/-- The decrypted words from the report's bytes (41_frame_decoder.md R121, R122). -/
theorem decryptedWords_eq (c : ConfigReg) (r : List Byte) (hr : r.length = 64) (hw : c.woffLegal = true) :
    decryptedWords c r = xxteaDecrypt 15 1 ((List.range 15).map fun i =>
      BitVec.ofNat 32 (wordValue c.bo (fun k => (byteAt r (c.woff.toNat + k)).toNat) i)) := by
  have hregion := length_cryptRegion c.woff.toNat r hr (c.woffLegal_iff.1 hw).2
  rw [decryptedWords, packWords_eq_map_wordValue c.bo 15 _ hregion]
  congr 1
  refine List.map_congr_left fun i hi => ?_
  have hi15 : i < 15 := List.mem_range.1 hi
  simp only [wordValue, byteAt_cryptRegion _ _ (4 * i) (by omega), byteAt_cryptRegion _ _ (4 * i + 1) (by omega),
    byteAt_cryptRegion _ _ (4 * i + 2) (by omega), byteAt_cryptRegion _ _ (4 * i + 3) (by omega)]

/-! ### The decrypted report -/

/-- Inside the crypt region the report holds the bytes of the decrypted words (41_frame_decoder.md R123). -/
theorem byteAt_decodedReport_inside (c : ConfigReg) (r : List Byte) (hr : r.length = 64) (hw : c.woffLegal = true)
    (i j : Nat) (hi : i < 15) (hj : j < 4) :
    (byteAt (decodedReport c r) (c.woff.toNat + 4 * i + j)).toNat
      = ((decryptedWords c r).getD i 0#32).toNat / 256 ^ (if c.bo = true then j else 3 - j) % 256 := by
  have hlen := length_decryptedWords c r hr hw
  rw [Nat.add_assoc, ← byteAt_cryptRegion _ _ _ (by omega), cryptRegion_decodedReport c r hr hw,
    byteAt_unpackWords _ _ i j (by omega) hj, byteAt_unpackWord _ _ j hj]

/-- Outside the crypt region the report keeps its bytes. -/
theorem decodedReport_getElem?_outside (c : ConfigReg) (r : List Byte) (hr : r.length = 64) (hw : c.woffLegal = true)
    (i : Nat) (hi : i < c.woff.toNat ∨ c.woff.toNat + 60 ≤ i) : (decodedReport c r)[i]? = r[i]? := by
  rw [decodedReport_getElem? c r i hr hw, if_neg (by omega)]

/-! ### The entries of OBS -/

/-- Entries of eight words, one after the other. -/
theorem flatMap_encode_getElem? (l : List Observation) (j m : Nat) (hj : j < l.length) (hm : m < 8) :
    (l.flatMap Observation.encode)[8 * j + m]? = l[j].encode[m]? := by
  induction l generalizing j with
  | nil => simp at hj
  | cons o l ih =>
    cases j with
    | zero => rw [List.flatMap_cons, List.getElem?_append_left (by simpa using hm)]; simp
    | succ j =>
      rw [List.flatMap_cons, List.getElem?_append_right (by rw [length_encode]; omega), length_encode,
        show 8 * (j + 1) + m - 8 = 8 * j + m by omega, List.getElem_cons_succ]
      exact ih j (by simpa using hj)

/-- The OBS image holds the entries of its observations in order (41_frame_decoder.md R124). -/
theorem obsImage_getD_of_entry (l : List Observation) (hl : l.length ≤ 22) (j m : Nat) (hj : j < l.length)
    (hm : m < 8) : (obsImage l).getD (8 * j + m) 0#32 = l[j].encode.getD m 0#32 := by
  have hfits : 8 * j + m < obsCap * obsEntryWords := by
    simp only [obsCap, obsEntryWords]
    omega
  rw [obsImage, List.getD_eq_getElem?_getD, List.getElem?_take_of_lt hfits,
    List.getElem?_append_left (by rw [length_flatMap_encode]; omega), flatMap_encode_getElem? l j m hj hm,
    List.getD_eq_getElem?_getD]

/-! ### The frame of a DECODE -/

/-- A DECODE writes no byte outside RB, WB and OBS. -/
theorem decode_result_read?_outside (s : State) (r : List Byte) (l : List Observation) (hr : r.length = 64)
    (hw : s.config.woffLegal = true) (a : Nat)
    (ha : (0x40 ≤ a ∧ a < 0x80) ∨ (0xBC ≤ a ∧ a < 0x100) ∨ 0x3C0 ≤ a) :
    (decodeEpilog ((decodeProlog r s).emit l)).mem.read? a = s.mem.read? a := by
  have hwoff := (s.config.woffLegal_iff.1 hw).2
  have hobs : a < obsBase ∨ obsBase + 4 * (obsImage l).length ≤ a := by
    rw [length_obsImage, obsBase]
    omega
  have hrb : rbBase + s.config.woff.toNat + (unpackWords s.config.bo (decryptedWords s.config r)).length ≤ a := by
    rw [length_unpacked _ r hr hw, rbBase]
    omega
  have hwb : a < wbBase ∨ wbBase + 4 * (decryptedWords s.config r).length ≤ a := by
    rw [length_decryptedWords _ r hr hw, wbBase]
    omega
  rw [decode_result_mem, Memory.read?_writeWords_of_outside _ _ _ _ hobs,
    Memory.read?_writeBlock_of_outside _ _ _ _ (.inr hrb), Memory.read?_writeWords_of_outside _ _ _ _ hwb]

/-- Settles O17: the DECODE of a written report answers the state of `execDecode_busy`; RB, WB and OBS read back from it
what was stored, and its observations are those of `decodedList`. -/
theorem decodeCompletesOnWrittenReport : Obligations.DecodeCompletesOnWrittenReport := by
  intro s r hbusy hlow hhigh hlen hbytes cfg woff lay u packed ws
  have hw : cfg.woffLegal = true := cfg.woffLegal_iff.2 ⟨hlow, hhigh⟩
  have hr : s.report = .ok r := (s.report_ok_iff r).2 ⟨hlen, hbytes⟩
  have hws : decryptedWords cfg r = ws := decryptedWords_eq cfg r hlen hw
  have hl := length_decodedList_le cfg s.layout r
  have hreport := decode_result_report s r (decodedList cfg s.layout r) hr hw
  have hwb := decode_result_wbWords s r (decodedList cfg s.layout r) hr hw
  have hobs := decode_result_obsWords s r (decodedList cfg s.layout r)
  rw [hws] at hwb
  refine ⟨_, decodedReport cfg r, decodedList cfg s.layout r, execDecode_busy s r hbusy hw hr, ?length,
    fun i hi => State.wb_of_wbWords hwb i hi, hreport, length_decodedReport cfg r hlen hw, fun i j hi hj => ?inside,
    fun i hi houtside => ?outside, rfl, fun j m hj hm => ?entries, fun j m hpast hj hm => ?cleared, ?count,
    decode_result_read?_outside s r _ hlen hw, ⟨hws.symm, rfl, rfl⟩, rfl⟩
  case length => rw [← hws, length_decryptedWords cfg r hlen hw]
  case inside => rw [← hws, byteAt_decodedReport_inside cfg r hlen hw i j hi hj]
  case outside =>
    have hkept := decodedReport_getElem?_outside cfg r hlen hw i houtside
    constructor
    · rw [((State.report_ok_iff _ _).1 hreport).2 i hi, hkept, hbytes i hi]
    · rw [byteAt, byteAt, List.getD_eq_getElem?_getD, hkept, List.getD_eq_getElem?_getD]
  case entries => rw [State.obs_of_readWords hobs j m (by omega) hm, obsImage_getD_of_entry _ hl j m hj hm]
  case cleared => rw [State.obs_of_readWords hobs j m hj hm, obsImage_getD_of_past_entries _ _ (by omega)]
  case count =>
    rw [decode_result_status, BitVec.toNat_ofNat]
    exact Nat.mod_eq_of_lt (Nat.lt_of_le_of_lt hl (by decide))

end Sys2Proof.Machine
end

section
/-! PROOF. The cipher's rounds (40_cipher.md R102 to R107): one sweep word by word from what it leaves, the running sum
after `k` rounds, and the whole function as its rounds iterated. -/

namespace Sys2Proof.Machine

/-! ### Neighbours in the ring of words (R106) -/

section
variable {n p : Nat}

theorem above_of_last (h : p = n - 1) (hn : 2 ≤ n) : (p + 1) % n = 0 := by
  rw [h, Nat.sub_add_cancel (by omega), Nat.mod_self]

theorem above_of_not_last (h : p ≠ n - 1) (hp : p < n) : (p + 1) % n = p + 1 :=
  Nat.mod_eq_of_lt (by omega)

theorem below_of_first (hn : 2 ≤ n) : (0 + n - 1) % n = n - 1 :=
  (Nat.zero_add n).symm ▸ Nat.mod_eq_of_lt (by omega)

theorem below_of_not_first (h : p ≠ 0) (hp : p < n) : (p + n - 1) % n = p - 1 := by
  rw [show p + n - 1 = p - 1 + n by omega, Nat.add_mod_right, Nat.mod_eq_of_lt (by omega)]

theorem above_ne_self (hn : 2 ≤ n) (hp : p < n) : (p + 1) % n ≠ p := by
  by_cases h : p = n - 1
  · rw [above_of_last h hn]; omega
  · rw [above_of_not_last h hp]; omega

theorem below_ne_self (hn : 2 ≤ n) (hp : p < n) : (p + n - 1) % n ≠ p := by
  by_cases h : p = 0
  · subst h; rw [below_of_first hn]; omega
  · rw [below_of_not_first h hp]; omega

end

/-! ### One sweep -/

/-- The steps on words below `p` leave the words from `p` on alone. -/
theorem cipherSweep_getD_of_le (n : Nat) (sum : Word) (e p q : Nat) (v : List Word) (h : p ≤ q) :
    (cipherSweep n sum e p v).getD q 0#32 = v.getD q 0#32 := by
  induction p generalizing v with
  | zero => rfl
  | succ p ih => rw [cipherSweep, ih _ (by omega), cipherStep_getD_of_ne _ _ _ _ _ _ (by omega)]

/-- Word `q` after the steps on words below `p`: y is the word above as the sweep leaves it, except that the last word
takes word 0 as the sweep found it; z is the word below as the sweep found it, except that word 0 takes the last word as
the sweep leaves it (40_cipher.md R105, R106). -/
theorem cipherSweep_getD_of_lt (n : Nat) (sum : Word) (e p q : Nat) (v : List Word) (hn : 2 ≤ n) (hv : v.length = n)
    (hp : p ≤ n) (hq : q < p) :
    (cipherSweep n sum e p v).getD q 0#32
      = v.getD q 0#32
        - mx (if q = n - 1 then v.getD 0 0#32 else (cipherSweep n sum e p v).getD (q + 1) 0#32)
            (if q = 0 then (cipherSweep n sum e p v).getD (n - 1) 0#32 else v.getD (q - 1) 0#32) sum e q := by
  induction p generalizing v with
  | zero => omega
  | succ p ih =>
    rw [cipherSweep]
    by_cases hqp : q = p
    case neg =>
      rw [ih _ (by rw [length_cipherStep, hv]) (by omega) (by omega), if_neg (show q ≠ n - 1 by omega),
        if_neg (show q ≠ n - 1 by omega), cipherStep_getD_of_ne _ _ _ _ q _ (by omega),
        cipherStep_getD_of_ne _ _ _ _ (q - 1) _ (by omega)]
    case pos =>
      subst hqp
      rw [cipherSweep_getD_of_le _ _ _ _ q _ le_rfl, cipherStep_getD_self _ _ _ _ _ (by omega)]
      congr 2
      · split
        case isTrue hlast => rw [above_of_last hlast hn]
        case isFalse hlast =>
          rw [above_of_not_last hlast (by omega), cipherSweep_getD_of_le _ _ _ _ _ _ (by omega),
            cipherStep_getD_of_ne _ _ _ _ _ _ (by omega)]
      · split
        case isTrue hfirst =>
          subst hfirst
          rw [below_of_first hn, cipherSweep_getD_of_le _ _ _ _ _ _ (by omega),
            cipherStep_getD_of_ne _ _ _ _ _ _ (by omega)]
        case isFalse hfirst => rw [below_of_not_first hfirst (by omega)]

/-! ### One round -/

/-- KEY (10_state.md R25) by index. -/
theorem key_toNat {i : Nat} (h : i < 4) :
    (key i).toNat = [0x875BCC51, 0xA7637A66, 0x50960967, 0xF8536C51].getD i 0 := by
  interval_cases i <;> rfl

/-- The key word's index stays inside KEY (40_cipher.md R104). -/
theorem keyIndex_lt (p : Nat) (sum : Word) : (p % 4) ^^^ roundE sum < 4 := by
  rw [roundE_eq]
  exact Nat.xor_lt_two_pow (n := 2) (Nat.mod_lt _ (by decide)) (Nat.mod_lt _ (by decide))

/-- Subtraction of words, with the borrow added before it (00_scope.md R10). -/
theorem toNat_sub_eq_add_sub (x y : Word) : (x - y).toNat = (x.toNat + 2 ^ 32 - y.toNat) % 2 ^ 32 := by
  rw [BitVec.toNat_sub, ← Nat.sub_add_comm y.isLt.le, Nat.add_comm (2 ^ 32)]

/-- Settles O12: a round is a sweep over all `n` words (`cipherSweep_getD_of_lt`), and MX is read by arithmetic. -/
theorem roundDataFlow : Obligations.RoundDataFlow := by
  intro n c hn hlen sum e keyWord mix v w
  refine ⟨(length_cipherSweep _ _ _ _ _).trans hlen, toNat_sub_eq_add_sub c.sum delta, fun p hp => ?_⟩
  have he : roundE c.sum = e := roundE_eq c.sum
  have hindex : (p % 4) ^^^ e < 4 := he ▸ keyIndex_lt p c.sum
  have hmix (y z : Word) : (mx y z c.sum (roundE c.sum) p).toNat = mix y.toNat z.toNat p := by
    rw [mx_toNat, key_toNat (keyIndex_lt p c.sum), he]
  have hword := congrArg BitVec.toNat (cipherSweep_getD_of_lt n c.sum (roundE c.sum) n p c.words hn hlen le_rfl hp)
  rw [toNat_sub_eq_add_sub, hmix, apply_ite BitVec.toNat, apply_ite BitVec.toNat] at hword
  exact ⟨hindex, hword⟩

/-! ### The running sum -/

theorem cipherRounds_sum (n k : Nat) (c : CipherState) :
    (cipherRounds n k c).sum = c.sum - BitVec.ofNat 32 k * delta := by
  induction k generalizing c with
  | zero => simp [cipherRounds]
  | succ k ih =>
    rw [cipherRounds, ih, cipherRound, BitVec.ofNat_add, BitVec.add_mul, BitVec.one_mul]
    ring

/-- Settles O13: the initial sum is one DELTA for each round. -/
theorem sumIsZeroAfterLastRound : Obligations.SumIsZeroAfterLastRound := by
  intro n br v
  rw [cipherRounds_sum, initialSum, BitVec.sub_self]

/-! ### The whole function -/

theorem initialSum_toNat (n br : Nat) : (initialSum n br).toNat = (br + 52 / n) * 0x9E3779B9 % 2 ^ 32 := by
  rw [initialSum, BitVec.toNat_mul, BitVec.toNat_ofNat, Nat.mod_mul_mod]
  rfl

theorem cipherRounds_eq_iterate (n k : Nat) (c : CipherState) : cipherRounds n k c = (cipherRound n)^[k] c := by
  induction k generalizing c with
  | zero => rfl
  | succ k ih => rw [cipherRounds, ih, Function.iterate_succ_apply]

/-- Settles O59: the start state is the one `xxteaDecrypt` gives its rounds. -/
theorem decryptionIteratesItsRounds : Obligations.DecryptionIteratesItsRounds := by
  intro n br v rounds
  refine ⟨{ sum := initialSum n br, words := v }, rfl, initialSum_toNat n br, ?_⟩
  rw [xxteaDecrypt, cipherRounds_eq_iterate]
  rfl

/-- Settles O10: the bounds on floor(52 / n) are the products 3n, 4n and 26n against 52. -/
theorem roundCountWithinBounds : Obligations.RoundCountWithinBounds := by
  intro n br hlow hhigh hbr
  have hpos : 0 < n := by omega
  have h3 : 3 ≤ 52 / n ↔ 3 * n ≤ 52 := Nat.le_div_iff_mul_le hpos
  have h4 : 52 / n < 4 ↔ 52 < 4 * n := Nat.div_lt_iff_lt_mul hpos
  have h26 : 26 ≤ 52 / n ↔ 26 * n ≤ 52 := Nat.le_div_iff_mul_le hpos
  have h27 : 52 / n < 27 ↔ 52 < 27 * n := Nat.div_lt_iff_lt_mul hpos
  rw [roundCount]
  omega

/-- Settles O11: closed words, evaluated one by one. -/
theorem productionRoundsAndSum : Obligations.ProductionRoundsAndSum :=
  ⟨by decide, by decide, by decide⟩

end Sys2Proof.Machine
end

section
/-! PROOF. The round trips (40_cipher.md R110): a forward step and a decryption step on the same word undo each other,
since neither touches the neighbours it reads; hence the sweeps, the rounds and the whole functions do. -/

namespace Sys2Proof.Machine

/-! ### One step -/

theorem forwardStep_getD_self (n : Nat) (sum : Word) (e p : Nat) (v : List Word) (h : p < v.length) :
    (forwardStep n sum e p v).getD p 0#32
      = v.getD p 0#32 + mx (v.getD ((p + 1) % n) 0#32) (v.getD ((p + n - 1) % n) 0#32) sum e p := by
  simp [forwardStep, List.getD_eq_getElem?_getD, h]

/-- Lists of one length are equal when they hold the same words. -/
theorem words_ext {u v : List Word} (hlen : u.length = v.length)
    (h : ∀ q, q < v.length → u.getD q 0#32 = v.getD q 0#32) : u = v := by
  refine List.ext_getElem hlen fun q hu hv => ?_
  rw [← List.getD_eq_getElem u 0#32 hu, ← List.getD_eq_getElem v 0#32 hv, h q hv]

section
variable {n p : Nat} (sum : Word) (e : Nat) (v : List Word)

theorem forwardStep_cipherStep (hn : 2 ≤ n) (hp : p < n) : forwardStep n sum e p (cipherStep n sum e p v) = v := by
  refine words_ext (by simp) fun q hq => ?_
  by_cases h : q = p
  · subst h
    rw [forwardStep_getD_self _ _ _ _ _ (by simpa using hq), cipherStep_getD_self _ _ _ _ _ hq,
      cipherStep_getD_of_ne _ _ _ _ _ _ (above_ne_self hn hp),
      cipherStep_getD_of_ne _ _ _ _ _ _ (below_ne_self hn hp), BitVec.sub_add_cancel]
  · rw [forwardStep_getD_of_ne _ _ _ _ _ _ h, cipherStep_getD_of_ne _ _ _ _ _ _ h]

theorem cipherStep_forwardStep (hn : 2 ≤ n) (hp : p < n) : cipherStep n sum e p (forwardStep n sum e p v) = v := by
  refine words_ext (by simp) fun q hq => ?_
  by_cases h : q = p
  · subst h
    rw [cipherStep_getD_self _ _ _ _ _ (by simpa using hq), forwardStep_getD_self _ _ _ _ _ hq,
      forwardStep_getD_of_ne _ _ _ _ _ _ (above_ne_self hn hp),
      forwardStep_getD_of_ne _ _ _ _ _ _ (below_ne_self hn hp), BitVec.add_sub_cancel]
  · rw [cipherStep_getD_of_ne _ _ _ _ _ _ h, forwardStep_getD_of_ne _ _ _ _ _ _ h]

/-! ### One sweep -/

theorem forwardSweep_cipherSweep (hn : 2 ≤ n) (hp : p ≤ n) :
    forwardSweep n sum e p (cipherSweep n sum e p v) = v := by
  induction p generalizing v with
  | zero => rfl
  | succ p ih => rw [forwardSweep, cipherSweep, ih _ (by omega), forwardStep_cipherStep sum e v hn hp]

theorem cipherSweep_forwardSweep (hn : 2 ≤ n) (hp : p ≤ n) :
    cipherSweep n sum e p (forwardSweep n sum e p v) = v := by
  induction p with
  | zero => rfl
  | succ p ih => rw [cipherSweep, forwardSweep, cipherStep_forwardStep sum e _ hn hp, ih (by omega)]

end

/-! ### Rounds -/

section
variable {n : Nat} (k : Nat) (c : CipherState)

theorem forwardRound_cipherRound (hn : 2 ≤ n) : forwardRound n (cipherRound n c) = c := by
  simp only [forwardRound, cipherRound, BitVec.sub_add_cancel, forwardSweep_cipherSweep _ _ _ hn le_rfl]

theorem cipherRound_forwardRound (hn : 2 ≤ n) : cipherRound n (forwardRound n c) = c := by
  simp only [cipherRound, forwardRound, BitVec.add_sub_cancel, cipherSweep_forwardSweep _ _ _ hn le_rfl]

theorem forwardRounds_cipherRounds (hn : 2 ≤ n) : forwardRounds n k (cipherRounds n k c) = c := by
  induction k generalizing c with
  | zero => rfl
  | succ k ih => rw [forwardRounds, cipherRounds, ih, forwardRound_cipherRound c hn]

theorem cipherRounds_forwardRounds (hn : 2 ≤ n) : cipherRounds n k (forwardRounds n k c) = c := by
  induction k with
  | zero => rfl
  | succ k ih => rw [cipherRounds, forwardRounds, cipherRound_forwardRound _ hn, ih]

theorem forwardRounds_sum (n : Nat) : (forwardRounds n k c).sum = c.sum + BitVec.ofNat 32 k * delta := by
  induction k with
  | zero => simp [forwardRounds]
  | succ k ih =>
    rw [forwardRounds, forwardRound, ih, BitVec.ofNat_add, BitVec.add_mul, BitVec.one_mul, BitVec.add_assoc]

end

/-! ### The whole functions -/

/-- Decryption ends where encryption starts: at the sum 0 (40_cipher.md R107). -/
theorem cipherRounds_of_xxteaDecrypt (n br : Nat) (v : List Word) :
    cipherRounds n (roundCount n br) { sum := initialSum n br, words := v }
      = { sum := 0#32, words := xxteaDecrypt n br v } :=
  congrArg (CipherState.mk · (xxteaDecrypt n br v)) (sumIsZeroAfterLastRound n br v)

/-- Encryption ends where decryption starts: at the initial sum (40_cipher.md R103). -/
theorem forwardRounds_of_xxteaEncrypt (n br : Nat) (v : List Word) :
    forwardRounds n (roundCount n br) { sum := 0#32, words := v }
      = { sum := initialSum n br, words := xxteaEncrypt n br v } :=
  congrArg (CipherState.mk · (xxteaEncrypt n br v)) ((forwardRounds_sum _ _ n).trans (BitVec.zero_add _))

/-- Settles O14: the rounds of decryption undo the forward rounds, last one first. -/
theorem decryptUndoesEncrypt : Obligations.DecryptUndoesEncrypt := by
  intro n br v hn _
  rw [xxteaDecrypt, ← forwardRounds_of_xxteaEncrypt, cipherRounds_forwardRounds _ _ hn]

/-- Settles O15: the forward rounds undo the rounds of decryption, last one first. -/
theorem encryptUndoesDecrypt : Obligations.EncryptUndoesDecrypt := by
  intro n br v hn _
  rw [xxteaEncrypt, ← cipherRounds_of_xxteaDecrypt, forwardRounds_cipherRounds _ _ hn]

end Sys2Proof.Machine
end

section
/-! PROOF. DECRYPT on written words (40_cipher.md R108, 42_commands.md R164): the words it stores read back, and the
rest of the state is kept. -/

namespace Sys2Proof.Machine

/-- WB[0 .. n-1] after a DECRYPT that found `ws` in it (40_cipher.md R108). -/
theorem decrypt_result_wbWords (s : State) (n br : Nat) (ws : List Word) (hlen : ws.length = n) :
    (s.setMem (s.mem.writeWords wbBase (xxteaDecrypt n br ws))).complete.wbWords n = .ok (xxteaDecrypt n br ws) := by
  have hstored := s.mem.readWords_writeWords_same wbBase (xxteaDecrypt n br ws)
  rwa [length_xxteaDecrypt, hlen] at hstored

/-- Settles O16: DECRYPT answers the state of `execDecrypt_busy`, which stores the decrypted words over the old ones and
nothing else. -/
theorem decryptCompletesOnWrittenWords : Obligations.DecryptCompletesOnWrittenWords := by
  intro s n br ws hbusy hn hlen hwritten
  have hws : s.wbWords n.toNat = .ok ws := (Memory.readWords_ok_iff _ _ _ _).2 ⟨hlen, hwritten⟩
  refine ⟨_, execDecrypt_busy n br s ws hbusy hn hws,
    State.wb_of_wbWords (decrypt_result_wbWords s n.toNat br.toNat ws hlen), fun a ha => ?frame, rfl⟩
  case frame =>
    refine Memory.read?_writeWords_of_outside _ _ _ _ ?_
    rwa [length_xxteaDecrypt, hlen]

end Sys2Proof.Machine
end

section
/-! PROOF. The frame decoder (41_frame_decoder.md R124 to R151): which frame a tag selects, what each record emits and
how much, the values of ANALOG entries, and from these the counts of a DECODE. -/

namespace Sys2Proof.Machine

/-! ### The dispatch on the tag -/

/-- The dispatch is `exec` of the frame that the tag decodes to (41_frame_decoder.md R124, 30_encoding.md R85). -/
theorem dispatchFrame_eq_exec_decodeTag (tag : Byte) (s : State) : dispatchFrame tag s = exec (decodeTag tag) s := by
  unfold dispatchFrame decodeTag
  by_cases hdual : tag = tagDual
  · rw [if_pos hdual, if_pos hdual, exec]
  · by_cases hhmd : tag = tagHmd
    · rw [if_neg hdual, if_neg hdual, if_pos hhmd, if_pos hhmd, exec]
    · rw [if_neg hdual, if_neg hdual, if_neg hhmd, if_neg hhmd, exec]

/-- Settles O6: the frame of the tag answers the prolog's state with its observations emitted, and DECODE fills OBS from
that state. -/
theorem decodeRunsFrameOfReportTag : Obligations.DecodeRunsFrameOfReportTag := by
  intro s r hbusy hlow hhigh hr
  have hw : s.config.woffLegal = true := s.config.woffLegal_iff.2 ⟨hlow, hhigh⟩
  rw [← dispatchFrame_eq_exec_decodeTag, dispatchFrame_prolog r s hr hw]
  exact execDecode_busy s r hbusy hw hr

section
variable (cfg : ConfigReg) (lay : LayoutTable) {r : List Byte}

theorem decodedList_of_dual (h : byteAt r 0 = tagDual) :
    decodedList cfg lay r = frameA5 cfg lay (decodedReport cfg r) :=
  if_pos h

theorem decodedList_of_hmd (h : byteAt r 0 = tagHmd) :
    decodedList cfg lay r = frameA6 cfg lay (decodedReport cfg r) := by
  rw [decodedList, h, if_neg (by decide), if_pos rfl]

theorem decodedList_of_other (hdual : byteAt r 0 ≠ tagDual) (hhmd : byteAt r 0 ≠ tagHmd) :
    decodedList cfg lay r = [] := by
  rw [decodedList, if_neg hdual, if_neg hhmd]

end

/-! ### What a record emits -/

/-- The version gate by arithmetic on the two tag bytes (41_frame_decoder.md R128). -/
theorem versionOk_eq (r : List Byte) (b : Nat) :
    versionOk r b = (decide ((byteAt r b).toNat = 2) && decide ((byteAt r (b + 1)).toNat = 1)) := by
  simp [versionOk, ← BitVec.toNat_inj]

section
variable (cfg : ConfigReg) (lay : LayoutTable) (r : List Byte) (c : Fin 2) (b : Nat)

theorem length_controllerRecord :
    (controllerRecord cfg lay r c b).length = if versionOk r b then 11 else 0 := by
  rw [controllerRecord, apply_ite List.length, length_controllerFields, List.length_nil]

theorem length_headsetRecord : (headsetRecord cfg lay r b).length = if versionOk r b then 2 else 0 :=
  apply_ite List.length _ _ _

theorem length_baseRecord : (baseRecord lay r b).length = if versionOk r b then 1 else 0 :=
  apply_ite List.length _ _ _

variable {r b} (h : versionOk r b = false)
include h

/-- A skipped record emits nothing at all (41_frame_decoder.md R128, R146). -/
theorem controllerRecord_of_mismatch : controllerRecord cfg lay r c b = [] :=
  if_neg (Bool.eq_false_iff.1 h)

theorem headsetRecord_of_mismatch : headsetRecord cfg lay r b = [] :=
  if_neg (Bool.eq_false_iff.1 h)

theorem baseRecord_of_mismatch : baseRecord lay r b = [] :=
  if_neg (Bool.eq_false_iff.1 h)

end

/-- Settles O26: a frame is its records' observations one after the other, and a skipped record contributes none. -/
theorem versionMismatchSkipsOnlyItsRecord : Obligations.VersionMismatchSkipsOnlyItsRecord := by
  intro cfg lay r
  refine ⟨fun h => ?first, fun h => ?second, fun h => ?headset, fun h => ?base⟩
  case first => rw [frameA5, ctrl0Base, controllerRecord_of_mismatch cfg lay 0 h, List.nil_append, ctrl1Base]
  case second => rw [frameA5, ctrl1Base, controllerRecord_of_mismatch cfg lay 1 h, List.append_nil, ctrl0Base]
  case headset => rw [frameA6, hsBase, headsetRecord_of_mismatch cfg lay h, List.nil_append, bsBase]
  case base => rw [frameA6, bsBase, baseRecord_of_mismatch lay h, List.append_nil, hsBase]

/-- BUTTONS by arithmetic on the mask: bit `k` is the state of button `6c + k` (41_frame_decoder.md R142). -/
theorem buttons_eq (m : Byte) (c : Fin 2) :
    buttons m c
      = [.button (controllerSource c) (6 * c.val) (decide (m.toNat % 2 = 1)),
         .button (controllerSource c) (6 * c.val + 1) (decide (m.toNat / 2 % 2 = 1)),
         .button (controllerSource c) (6 * c.val + 2) (decide (m.toNat / 4 % 2 = 1)),
         .button (controllerSource c) (6 * c.val + 3) (decide (m.toNat / 8 % 2 = 1)),
         .button (controllerSource c) (6 * c.val + 4) (decide (m.toNat / 16 % 2 = 1)),
         .button (controllerSource c) (6 * c.val + 5) (decide (m.toNat / 32 % 2 = 1))] := by
  have hbit : ∀ k, m.getLsbD k = decide (m.toNat / 2 ^ k % 2 = 1) := fun _ => Nat.testBit_eq_decide_div_mod_eq
  simp [buttons, hbit, List.range_succ]

/-- Settles O24: the gate is the arithmetic on the two tag bytes, and the six buttons are the mask's low bits. -/
theorem recordsEmitTheirFieldsInOrder : Obligations.RecordsEmitTheirFieldsInOrder := by
  intro cfg lay r b valid
  have hvalid : versionOk r b = valid := versionOk_eq r b
  refine ⟨fun c src hsrc => ?controller, ?headset, ?base⟩
  case controller =>
    obtain rfl : src = controllerSource c := hsrc
    rw [controllerRecord, hvalid, controllerFields, buttons_eq]
    rfl
  case headset => rw [headsetRecord, hvalid]
  case base => rw [baseRecord, hvalid]

/-! ### Kinds -/

/-- KIND of an observation's entry (30_encoding.md R90). -/
def Observation.kind : Observation → BitVec 4
  | .pose .. => kindPose
  | .home .. => kindHome
  | .button .. => kindButton
  | .analog .. => kindAnalog

theorem entryHeader_kind (kind : BitVec 4) (src : Source) (index : BitVec 8) (pscaled : Bool) :
    (entryHeader kind src index pscaled).toNat % 16 = kind.toNat := by
  obtain ⟨-, hkind, -⟩ := entryHeader_fields kind src index pscaled
  exact hkind

/-- The low four bits of an entry's header are its KIND. -/
theorem entryWord_encode_kind (o : Observation) : (entryWord o.encode 0).toNat % 16 = o.kind.toNat := by
  cases o <;> exact entryHeader_kind _ _ _ _

/-- One POSE, six BUTTON and four ANALOG, in this order (41_frame_decoder.md R146, R147). -/
theorem controllerFields_kinds (cfg : ConfigReg) (lay : LayoutTable) (r : List Byte) (c : Fin 2) (b : Nat) :
    (controllerFields cfg lay r c b).map (fun o => o.kind.toNat) = [1, 2, 2, 2, 2, 2, 2, 3, 3, 3, 3] := by
  rw [controllerFields, buttons_eq]
  rfl

/-- Settles O25: the kinds in the entries' headers are those of the observations, which the record lists. -/
theorem controllerRecordEmitsElevenOrNone : Obligations.ControllerRecordEmitsElevenOrNone := by
  intro cfg lay r c b l kinds
  refine ⟨fun h => ?valid, controllerRecord_of_mismatch cfg lay c⟩
  case valid =>
    have hl : l = controllerFields cfg lay r c b := if_pos h
    have hkinds : kinds = [1, 2, 2, 2, 2, 2, 2, 3, 3, 3, 3] := by
      simp only [kinds, entryWord_encode_kind, hl, controllerFields_kinds]
    rw [hkinds, hl]
    exact ⟨length_controllerFields cfg lay r c b, by decide⟩

/-! ### The values of ANALOG entries -/

section
variable (src : Source) (ch : Channel) (num : Int) (den : Nat) (b : Byte)

/-- An ANALOG entry denotes num / den where both fit in 32 bits (30_encoding.md R95). -/
theorem physicalAnalog_encode (hnum : -2 ^ 31 ≤ num ∧ num < 2 ^ 31) (hden : den < 2 ^ 32) :
    physicalAnalog (Observation.analog src ch num den b).encode = (num : Rat) / den := by
  simp only [physicalAnalog, Observation.encode, entryWord_cons_succ, entryWord_cons_zero, toInt_tc32 num hnum,
    BitVec.toNat_ofNat, Nat.mod_eq_of_lt hden]

theorem entryWord_analog_raw : (entryWord (Observation.analog src ch num den b).encode 3).toNat = b.toNat :=
  BitVec.toNat_setWidth_of_le (show 8 ≤ 32 by decide)

/-- A byte as numerator is its own word: tc32 reads it unsigned (41_frame_decoder.md R144, R145). -/
theorem entryWord_analog_num_of_byte :
    (entryWord (Observation.analog src ch b.toNat den b).encode 1).toNat = b.toNat := by
  have hb := b.isLt
  simp only [Observation.encode, entryWord_cons_succ, entryWord_cons_zero, tc32, BitVec.ofInt_natCast,
    BitVec.toNat_ofNat]
  omega

end

/-- TOUCH's numerator is odd and no larger than its denominator, 255 (41_frame_decoder.md R143). -/
theorem touchNum_bounds (b : Byte) (inv : Bool) :
    -255 ≤ touchNum b inv ∧ touchNum b inv ≤ 255 ∧ touchNum b inv ≠ 0 := by
  have hb := b.isLt
  cases inv <;> simp only [touchNum] <;> omega

/-- TOUCH's numerator over 255 is 2*(b/255) - 1, or its negation when inverted. -/
theorem touchNum_div (b : Byte) (inv : Bool) :
    (touchNum b inv : Rat) / 255
      = if inv then -(2 * ((b.toNat : Rat) / 255) - 1) else 2 * ((b.toNat : Rat) / 255) - 1 := by
  cases inv <;> simp [touchNum] <;> ring

/-- Settles O30: the entry denotes the numerator over 255, which is the asked value; the numerator's bounds and its
being odd give the rest. -/
theorem touchValueIsExact : Obligations.TouchValueIsExact := by
  intro src ch b inv num e x
  obtain ⟨hlow, hhigh, hzero⟩ := touchNum_bounds b inv
  have hrange : -2 ^ 31 ≤ num ∧ num < 2 ^ 31 := ⟨le_trans (by decide) hlow, lt_of_le_of_lt hhigh (by decide)⟩
  have hvalue : physicalAnalog e = (num : Rat) / 255 := physicalAnalog_encode src ch num 255 b hrange (by decide)
  have hlow' : (-255 : Rat) ≤ num := by exact_mod_cast hlow
  have hhigh' : (num : Rat) ≤ 255 := by exact_mod_cast hhigh
  refine ⟨rfl, hvalue.trans (touchNum_div b inv), ?low, ?high, ?nonzero, toInt_tc32 num hrange, rfl,
    entryWord_analog_raw src ch num 255 b⟩
  case low => rw [hvalue]; linarith
  case high => rw [hvalue]; linarith
  case nonzero =>
    rw [hvalue]
    exact div_ne_zero (Int.cast_ne_zero.2 hzero) (by norm_num)

/-- Settles O31: the numerator is the byte itself, read unsigned, over 255 or 1. -/
theorem unitAndRawValuesAreExact : Obligations.UnitAndRawValuesAreExact := by
  intro src ch b e f
  have hb := b.isLt
  have hrange : -2 ^ 31 ≤ (b.toNat : Int) ∧ (b.toNat : Int) < 2 ^ 31 := by omega
  have hunit : physicalAnalog e = (b.toNat : Rat) / 255 := physicalAnalog_encode src ch b.toNat 255 b hrange (by decide)
  have hraw : physicalAnalog f = (b.toNat : Rat) / (1 : Nat) :=
    physicalAnalog_encode src ch b.toNat 1 b hrange (by decide)
  have hle : (b.toNat : Rat) ≤ 255 := by exact_mod_cast Nat.le_of_lt_succ hb
  refine ⟨rfl, hunit, ?nonneg, ?le_one, entryWord_analog_num_of_byte src ch 255 b, rfl,
    entryWord_analog_raw src ch _ 255 b, rfl, ?raw, entryWord_analog_num_of_byte src ch 1 b, rfl,
    entryWord_analog_raw src ch _ 1 b⟩
  case nonneg => rw [hunit]; positivity
  case le_one => rw [hunit]; linarith
  case raw => rw [hraw, Nat.cast_one, div_one]

/-! ### What a DECODE counts -/

/-- Settles O20: OBS_COUNT is the length of the list the frame of the tag emits, record by record. -/
theorem observationCountsOfFrames : Obligations.ObservationCountsOfFrames := by
  intro s t r hbusy hr ht lay
  obtain ⟨-, r₀, hr₀, hreport, -, -, hcount⟩ := execDecode_result s t hbusy ht
  obtain rfl : r = r₀ := Except.ok.inj (hr.symm.trans hr₀)
  have hle : (decodedList s.config lay r).length ≤ 22 := length_decodedList_le s.config lay r
  have hlength : t.status.obsCount.toNat = (decodedList s.config lay r).length := by
    rw [hcount, BitVec.toNat_ofNat]
    exact Nat.mod_eq_of_lt (Nat.lt_of_le_of_lt hle (by decide))
  refine ⟨decodedReport s.config r, hreport, fun hdual => ?dual, fun hhmd => ?hmd, fun hdual hhmd => ?other, ?bound⟩
  case dual =>
    rw [hlength, decodedList_of_dual _ _ hdual, frameA5, List.length_append, length_controllerRecord,
      length_controllerRecord, ctrl0Base, ctrl1Base]
  case hmd =>
    rw [hlength, decodedList_of_hmd _ _ hhmd, frameA6, List.length_append, length_headsetRecord, length_baseRecord,
      hsBase, bsBase]
  case other => rw [hlength, decodedList_of_other _ _ hdual hhmd, List.length_nil]
  case bound => rwa [hlength]

/-- Settles O21: the observation list of the report is empty, so the OBS image is cleared all over; RB and WB are those
of every DECODE. -/
theorem unknownTagDecryptsAndEmitsNothing : Obligations.UnknownTagDecryptsAndEmitsNothing := by
  refine ⟨fun _ _ _ _ => rfl, fun s r hbusy hlow hhigh hr hdual hhmd => ?_⟩
  have hw : s.config.woffLegal = true := s.config.woffLegal_iff.2 ⟨hlow, hhigh⟩
  have hrun := execDecode_busy s r hbusy hw hr
  rw [decodedList_of_other s.config s.layout hdual hhmd] at hrun
  have hobs := decode_result_obsWords s r []
  have hstatus := decode_result_status r [] s
  refine ⟨_, hrun, ?count, fun j m hj hm => ?cleared, decode_result_report s r [] hr hw,
    decode_result_wbWords s r [] hr hw, ?done, ?err⟩
  case count => rw [hstatus]; rfl
  case cleared => rw [State.obs_of_readWords hobs j m hj hm, obsImage_getD_of_past_entries _ _ (Nat.zero_le _)]
  case done => rw [hstatus]
  case err => rw [hstatus]

end Sys2Proof.Machine
end

section
/-! PROOF. The life of a command (42_commands.md R160 to R166): one step of the engine's agent and one CMD write, each as
one equation, and from these the rejection, the acceptance and the performance of a command. -/

namespace Sys2Proof.Machine

/-! ### The engine's turn -/

/-- The engine's turn, as the pending event or because none is pending, uses up its own event only. -/
theorem step_of_engine {s : State} {rest : List Input}
    (hi : s.inputs = .engine :: rest ∨ (s.inputs = [] ∧ rest = [])) : step s = engineTurn (s.setInputs rest) := by
  rcases hi with hi | ⟨hi, rfl⟩
  · simp only [step, hi]
  · have hsame : s.setInputs [] = s := by rw [State.setInputs, ← hi]
    simp only [step, hi, hsame]

theorem engineTurn_idle {s : State} (hidle : s.status.busy = false) : engineTurn s = .next s := by
  simp [engineTurn, hidle]

/-- A turn that performs a command ends it (42_commands.md R163): of STATUS it writes BUSY, DONE and, for a DECODE,
OBS_COUNT. -/
theorem engineTurn_completes_of_next {s t : State} (hbusy : s.status.busy = true) (h : engineTurn s = .next t) :
    t.status = { s.status with busy := false, done := true, obsCount := t.status.obsCount }
      ∧ t.lc = none ∧ t.config = s.config ∧ t.ctrl = s.ctrl ∧ t.inputs = s.inputs := by
  rcases engineTurn_next s t h with
    ⟨hidle, -⟩ | ⟨-, cmd, n, br, ws, -, -, -, -, rfl⟩ | ⟨-, cmd, r, -, -, -, -, rfl⟩
  · simp [hidle] at hbusy
  · exact ⟨rfl, rfl, rfl, rfl, rfl⟩
  · obtain ⟨hconfig, hctrl, -, -, hinputs, -, -, hlc, -⟩ :=
      decode_result_frame r (decodedList s.config s.layout r) s
    exact ⟨by rw [decode_result_status], hlc, hconfig, hctrl, hinputs⟩

/-- Settles O47: a busy turn that answers a next state is a completed command, and an idle turn answers its own state. -/
theorem engineTurnEndsCommandOrIdles : Obligations.EngineTurnEndsCommandOrIdles := by
  intro s t rest hi
  rw [step_of_engine hi]
  refine ⟨fun hidle => engineTurn_idle hidle, fun hbusy ht => ?_⟩
  obtain ⟨hstatus, hlc, hconfig, hctrl, hinputs⟩ :=
    engineTurn_completes_of_next (s := s.setInputs rest) hbusy ht
  rw [hstatus]
  exact ⟨rfl, rfl, hlc, rfl, rfl, hconfig, hctrl, hinputs⟩

/-- Settles O4: both kinds of turn are the engine's, which performs the latched instruction. -/
theorem engineTurnRunsLatchedInstruction : Obligations.EngineTurnRunsLatchedInstruction := by
  intro s cmd i hbusy hlc hd
  refine ⟨fun hi => ?noEvent, fun rest hi => ?engineEvent⟩
  case noEvent =>
    have hturn : step s = engineTurn s := by simp only [step, hi]
    exact hturn.trans (engineTurn_busy hbusy hlc hd)
  case engineEvent => exact (step_of_engine (.inl hi)).trans (engineTurn_busy hbusy hlc hd)

/-! ### The CMD write -/

/-- An idle CMD write of a legal word is the word's instruction, run after the port has answered (42_commands.md
R160). -/
theorem writeCmd_of_decodeCmd {cmd : Word} {i : Instr} {s : State} (hidle : s.status.busy = false)
    (hd : decodeCmd cmd = some i) : writeCmd cmd s = exec i (s.setResponse .written) := by
  simp [writeCmd, hidle, hd]

/-- Settles O5: the address map takes the write to CMD, which runs the decoded instruction. -/
theorem idleCommandWriteRunsDecodedInstruction : Obligations.IdleCommandWriteRunsDecodedInstruction := by
  intro s cmd i rest hidle hi hd
  rw [step_of_write hi, hostWrite_cmd]
  exact writeCmd_of_decodeCmd hidle hd

/-- A CMD write while busy is dropped (42_commands.md R160). -/
theorem step_of_cmdWrite_busy {s : State} {cmd : Word} {rest : List Input}
    (hi : s.inputs = .access (.write 0x040#12 .w32 cmd) :: rest) (hbusy : s.status.busy = true) :
    step s = .next (s.setInputs rest).dropWrite := by
  rw [step_of_write hi]
  exact hostWrite_busy_drops cmd hbusy rfl (.inr (.inr (.inr rfl)))

/-- A CMD write while idle answers what the acceptance rule makes of the word's check (42_commands.md R160, R161). -/
theorem step_of_cmdWrite_idle {s : State} {cmd : Word} {rest : List Input} {check : Option ErrCode}
    (hi : s.inputs = .access (.write 0x040#12 .w32 cmd) :: rest) (hidle : s.status.busy = false)
    (hcheck : commandCheck s.config (decodeCmd cmd) = check) :
    step s = .next (((s.setInputs rest).setResponse .written).present cmd check) := by
  rw [step_of_write hi, hostWrite_cmd, writeCmd_idle cmd (s.setInputs rest) hidle, State.setInputs_config, hcheck]

/-! ### The checks by arithmetic (42_commands.md R161) -/

theorem checkDecrypt_of_lt {n : BitVec 4} (hn : n.toNat < 2) : checkDecrypt n = some .nTooSmall := if_pos hn

theorem checkDecrypt_of_le {n : BitVec 4} (hn : 2 ≤ n.toNat) : checkDecrypt n = none := if_neg (Nat.not_lt.2 hn)

theorem checkDecode_of_configured {c : ConfigReg} (hvalid : c.valid = true)
    (hwoff : 1 ≤ c.woff.toNat ∧ c.woff.toNat ≤ 4) : checkDecode c = none :=
  if_pos (Bool.and_eq_true_iff.2 ⟨hvalid, c.woffLegal_iff.2 hwoff⟩)

theorem checkDecode_of_not_configured {c : ConfigReg}
    (h : c.valid = false ∨ ¬ (1 ≤ c.woff.toNat ∧ c.woff.toNat ≤ 4)) : checkDecode c = some .notConfigured := by
  refine if_neg fun hpass => ?_
  obtain ⟨hvalid, hlegal⟩ := Bool.and_eq_true_iff.1 hpass
  rcases h with hinvalid | hwoff
  · simp [hvalid] at hinvalid
  · exact hwoff (c.woffLegal_iff.1 hlegal)

/-- Settles O7: while idle each clause names the outcome of the word's check, and the acceptance rule does the rest. -/
theorem commandWriteDropsRejectsOrAccepts : Obligations.CommandWriteDropsRejectsOrAccepts := by
  intro s cmd rest hi
  refine ⟨fun hbusy => ?dropped, fun hidle hd => ?illegal, fun n br hidle hd hn => ?tooSmall,
    fun hidle hd hconfig => ?notConfigured, fun hidle hlegal => ?accepted⟩
  case dropped => exact step_of_cmdWrite_busy hi hbusy
  case illegal => exact step_of_cmdWrite_idle (check := some .illegalCmd) hi hidle (by rw [hd, commandCheck])
  case tooSmall =>
    exact step_of_cmdWrite_idle (check := some .nTooSmall) hi hidle
      (by rw [hd, commandCheck, checkDecrypt_of_lt hn])
  case notConfigured =>
    exact step_of_cmdWrite_idle (check := some .notConfigured) hi hidle
      (by rw [hd, commandCheck, checkDecode_of_not_configured hconfig])
  case accepted =>
    refine step_of_cmdWrite_idle (check := none) hi hidle ?_
    rcases hlegal with ⟨n, br, hd, hn⟩ | ⟨hd, hvalid, hwoff⟩
    · rw [hd, commandCheck, checkDecrypt_of_le hn]
    · rw [hd, commandCheck, checkDecode_of_configured hvalid hwoff]

/-- Settles O8: the next state is `State.accept` of the word; with DONE cleared irq is low. -/
theorem acceptedCommandIsLatched : Obligations.AcceptedCommandIsLatched := by
  intro s cmd rest hi hidle hcheck
  exact ⟨_, step_of_cmdWrite_idle hi hidle hcheck, rfl, rfl, rfl, rfl, rfl, rfl, State.irq_of_not_done rfl, rfl⟩

/-- Settles O9: the next state is `State.raiseCmdError` of the code, which leaves BUSY at 0, so that the engine has
nothing to do. -/
theorem rejectedCommandChangesOnlyDoneAndErr : Obligations.RejectedCommandChangesOnlyDoneAndErr := by
  intro s cmd rest code hi hidle hcheck
  refine ⟨_, step_of_cmdWrite_idle hi hidle hcheck, hidle, rfl, fun hie => (State.irq_iff _).2 ⟨rfl, hie⟩, ?_⟩
  rw [step_of_engine (.inl rfl)]
  exact engineTurn_idle hidle

end Sys2Proof.Machine
end

section
/-! PROOF. The reset input (70_reset_and_hazards.md R200, R201) and the block's first commands after it (R202). -/

namespace Sys2Proof.Machine

/-! ### The reset input -/

theorem step_of_reset {s : State} {rest : List Input} (hi : s.inputs = .reset :: rest) :
    step s = .next (s.setInputs rest).resetBlock := by
  simp only [step, hi]

theorem Memory.read?_nil (a : Nat) : Memory.read? [] a = none := rfl

/-- Settles O53: the next state is `State.resetBlock`, whatever command was in progress; with DONE at 0 irq is low. -/
theorem resetInputAbandonsCommand : Obligations.ResetInputAbandonsCommand := by
  intro s rest hi
  exact ⟨_, step_of_reset hi, State.resetBlock_config _, State.resetBlock_status _, State.resetBlock_ctrl _,
    State.resetBlock_lc _, State.irq_of_not_done rfl, Memory.read?_nil, rfl, rfl, rfl⟩

/-! ### The first commands after reset -/

/-- DECRYPT needs no configuration: its check looks at n only (42_commands.md R161). -/
theorem commandCheck_decryptWord {n : BitVec 4} (c : ConfigReg) (br : BitVec 8) (hn : 2 ≤ n.toNat) :
    commandCheck c (decodeCmd (decryptWord n br)) = none := by
  rw [decodeCmd_decryptWord, commandCheck, checkDecrypt_of_le hn]

/-- A DECODE is rejected while VALID = 0 (42_commands.md R161), as it is after reset. -/
theorem commandCheck_decode_of_invalid {c : ConfigReg} (hinvalid : c.valid = false) :
    commandCheck c (decodeCmd 0x00000002#32) = some .notConfigured := by
  rw [(decodeCmd_eq_decode_iff 0x00000002#32).2 rfl, commandCheck, checkDecode_of_not_configured (.inl hinvalid)]

/-- STATUS once a command is accepted right after reset: BUSY alone is 1. -/
theorem status_word_accept_of_reset {s : State} (cmd : Word) (hstatus : s.status = Status.reset) :
    (s.accept cmd).status.word = 0x00000001#32 := by
  rw [State.accept_status, hstatus]
  rfl

/-- STATUS once a command is rejected as not configured right after reset: DONE = 1 and ERR = 3. -/
theorem status_word_notConfigured_of_reset {s : State} (hstatus : s.status = Status.reset) :
    (s.raiseCmdError .notConfigured).status.word = 0x00000032#32 := by
  rw [State.raiseCmdError_status, hstatus]
  rfl

/-- Settles O54: reset leaves the block idle with VALID = 0, so that the acceptance rule takes the DECRYPT and rejects the
DECODE. -/
theorem afterResetDecryptAcceptedDecodeRefused : Obligations.AfterResetDecryptAcceptedDecodeRefused := by
  intro s rest n br hstatus hconfig hctrl
  have hidle : s.status.busy = false := by rw [hstatus, Status.reset]
  have hinvalid : s.config.valid = false := by rw [hconfig, ConfigReg.reset]
  have hmasked : s.ctrl.ie = false := by rw [hctrl, Ctrl.reset]
  refine ⟨hidle, hinvalid, hmasked, fun hn hi => ?decrypt, fun hi => ?decode⟩
  case decrypt =>
    exact ⟨_, step_of_cmdWrite_idle hi hidle (commandCheck_decryptWord s.config br hn), State.accept_lc _ _,
      status_word_accept_of_reset _ hstatus⟩
  case decode =>
    exact ⟨_, step_of_cmdWrite_idle hi hidle (commandCheck_decode_of_invalid hinvalid), State.raiseCmdError_lc _ _,
      status_word_notConfigured_of_reset hstatus⟩

end Sys2Proof.Machine
end
